-- ==== Sys2Proof/Word.lean ====
section
/-! DEFINITION. The word types of the core: bits, bytes and message characters (00_scope.md R10, 20_memory.md R50). -/

namespace Sys2Proof

/-- One bit of the bitstream, a `BITS` element (20_memory.md R50, R54). -/
abbrev Bit := BitVec 1

/-- A channel value, an `IMG` element (20_memory.md R50), and a command word (30_encoding.md R79). -/
abbrev Byte := BitVec 8

/-- A message character's code point, a `MSG` element: `CPW` = 32 bits (00_scope.md R8, 20_memory.md R53). -/
abbrev Char32 := BitVec 32

/-- Bit `i` of a value, numbered as 00_scope.md R10 numbers it. -/
def bitAt {n : Nat} (v : BitVec n) (i : Nat) : Bit := BitVec.ofBool (v.getLsbD i)

end Sys2Proof
end

