-- ==== Sys2Proof/Config.lean ====
section
/-! DEFINITION. What an implementation fixes and the spec leaves open: the sizes (00_scope.md R8) and what the
memories hold after power-up (10_state.md R35, 20_memory.md R61). -/

namespace Sys2Proof.Config

/-- The open parameters of 00_scope.md R8, `none` meaning unbounded ("a model may use unbounded naturals").
DESIGN CHOICE, safe (log 1): the model takes them as an argument, which the state carries. -/
structure Params where
  /-- `DIMW`, the width in bits of `WIDTH` and `HEIGHT`. -/
  dimw : Option Nat
  /-- `LENW`, the width in bits of `MLEN` and `BLEN`. -/
  lenw : Option Nat
  /-- `MAXBITS`, the depth of the bitstream memory in bits. -/
  maxBits : Option Nat
  deriving DecidableEq, Repr

/-- All sizes unbounded: 92_eei_decisions.md's suggestion for a first model. -/
def Params.unbounded : Params := { dimw := none, lenw := none, maxBits := none }

/-- The value an `IMG` element holds from power-up until it is written: a free value
(20_memory.md R61: "an arbitrary value of its width that stays the same until written"; log 4). -/
opaque powerUpImg : Nat → Byte

/-- The value a `MSG` element holds from power-up until it is written: a free value (20_memory.md R61; log 4). -/
opaque powerUpMsg : Nat → Char32

/-- The value a `BITS` element holds from power-up until it is written: a free value (20_memory.md R61; log 4). -/
opaque powerUpBits : Nat → Bit

end Sys2Proof.Config
end

