-- ==== Sys2Proof/Syntax.lean ====
section
/-! DEFINITION. The command set: one constructor per row of spec/opcode_table.json (30_encoding.md R80).
A command word carries no operand (30_encoding.md R81), so no constructor has an argument. -/

namespace Sys2Proof

/-- The seven commands of 30_encoding.md R80. -/
inductive Instr where
  /-- CHKCAP, check capacity (40_capacity.md R92). -/
  | chkcap
  /-- PACK, message to bitstream (41_pack_unpack.md R102). -/
  | pack
  /-- UNPACK, bitstream to message (41_pack_unpack.md R108). -/
  | unpack
  /-- EMBED, place a bitstream in the image (42_insert_encode.md R126). -/
  | embed
  /-- EXTRACT, read the image's least significant bits (43_extract_decode.md R144). -/
  | extract
  /-- ENCODE, hide a message in the image (42_insert_encode.md R131). -/
  | encode
  /-- DECODE, recover a message from the image (43_extract_decode.md R148). -/
  | decode
  deriving DecidableEq, Repr

end Sys2Proof
end

