-- ==== Sys2Proof/WellFormed.lean ====
section
/-! DEFINITION. What is well formed: a command word (30_encoding.md R79, R80) and a choice of the open parameters
(00_scope.md R8). A command itself has no operand (R81), so every `Instr` is well formed. -/

namespace Sys2Proof

/-- Format C: the `zero` field (bits 7 to 3) is 0 and `op` (bits 2 to 0) is 1 to 7 (30_encoding.md R79). -/
def wordWf (w : Byte) : Bool :=
  w.extractLsb' 3 5 == 0#5 && w.extractLsb' 0 3 != 0#3

namespace Config

/-- `DIMW` is at least 1 (92_eei_decisions.md, open parameters). -/
def Params.dimwOk (P : Params) : Bool :=
  match P.dimw with
  | none => true
  | some d => 1 ≤ d

/-- `MAXBITS` is at least 16 (00_scope.md R8). -/
def Params.maxBitsOk (P : Params) : Bool :=
  match P.maxBits with
  | none => true
  | some b => 16 ≤ b

/-- `LENW` is at least enough to hold `MAXBITS` (00_scope.md R8). DEDUCED, safe (log 7): a bounded `LENW` holds no
unbounded `MAXBITS`. -/
def Params.lenwOk (P : Params) : Bool :=
  match P.lenw, P.maxBits with
  | none, _ => true
  | some _, none => false
  | some l, some b => b < 2 ^ l

/-- The parameters are a choice that 00_scope.md R8 allows. -/
def Params.wf (P : Params) : Bool := P.dimwOk && P.maxBitsOk && P.lenwOk

end Config

end Sys2Proof
end

