-- ==== Sys2Proof/Decode.lean ====
section
/-! DEFINITION. The command decoder and encoder (30_encoding.md R79, R80, R82). -/

namespace Sys2Proof

/-- Why a word is no command (30_encoding.md R82). Either way a write of it to `CMD` raises `IllegalCommand`. -/
inductive DecodeError where
  /-- The `zero` field, bits 7 to 3, is not 0: words 0x08 to 0xFF. -/
  | zeroFieldSet
  /-- `op` is 0 under a clear `zero` field: word 0x00. -/
  | noSuchOp
  deriving DecidableEq, Repr

/-- Field `zero`, bits 7:3 of the command word (30_encoding.md R79). -/
def zeroField (w : Byte) : BitVec 5 := w.extractLsb' 3 5

/-- Field `op`, bits 2:0 of the command word (30_encoding.md R79). -/
def opField (w : Byte) : BitVec 3 := w.extractLsb' 0 3

/-- The command an `op` value selects (30_encoding.md R80). -/
def decodeOp (op : Nat) : Except DecodeError Instr :=
  match op with
  | 1 => .ok .chkcap
  | 2 => .ok .pack
  | 3 => .ok .unpack
  | 4 => .ok .embed
  | 5 => .ok .extract
  | 6 => .ok .encode
  | 7 => .ok .decode
  | _ => .error .noSuchOp

/-- The command a word stands for, total on all 256 words (30_encoding.md R80, R82, R83). -/
def decode (w : Byte) : Except DecodeError Instr :=
  if zeroField w = 0#5 then decodeOp (opField w).toNat else .error .zeroFieldSet

/-- `op` of each command (30_encoding.md R80). -/
def opOf (i : Instr) : BitVec 3 :=
  match i with
  | .chkcap => 1#3
  | .pack => 2#3
  | .unpack => 3#3
  | .embed => 4#3
  | .extract => 5#3
  | .encode => 6#3
  | .decode => 7#3

/-- The command's word: `zero` in bits 7 to 3, `op` in bits 2 to 0 (30_encoding.md R79). -/
def encode (i : Instr) : Byte := 0#5 ++ opOf i

/-- What the decoder reads from a command whose bits are `w`, numbered as spec/opcode_table.json numbers them. Every
command is one 8-bit word (30_encoding.md R83), so a larger number is no command. -/
def decodeTableWord (nbits w : Nat) : Option Instr :=
  if nbits ≤ 8 ∧ w < 256 then (decode (BitVec.ofNat 8 w)).toOption else none

end Sys2Proof
end

