-- ==== Sys2Proof/Machine/State.lean ====
section
/-! DEFINITION. The state of the core (10_state.md R22, R23, R33), the host's transactions (R21), the reasons a step
can stop, and the state after reset (R35). -/

namespace Sys2Proof.Machine

/-- A memory of `w`-bit elements: (address, element) pairs, addresses strictly rising. An address that is not listed has
not been written since power-up. `Memory 8` is `List Host.Cell`. -/
abbrev Memory (w : Nat) := List (Nat × BitVec w)

/-- The three address spaces (20_memory.md R50). -/
inductive Space where
  | img
  | msg
  | bits
  deriving DecidableEq, Repr

/-- The five host transactions of 10_state.md R21. Values are natural numbers, as R23 says of every register. -/
inductive HostTxn where
  /-- `RegRead(n)`. -/
  | regRead (n : Nat)
  /-- `RegWrite(n, v)`; `n = 0` is `CMD` and runs the command `v`. -/
  | regWrite (n v : Nat)
  /-- `HostMemRead(space, addr)`. -/
  | memRead (sp : Space) (a : Nat)
  /-- `HostMemWrite(space, addr, v)`. -/
  | memWrite (sp : Space) (a v : Nat)
  /-- `Reset`. -/
  | reset
  deriving DecidableEq, Repr

/-- Why the machine stops with a fault. (The spec's own faults, `IllegalCommand` and `BadConfig`, are no stop: they are
status bits and a next state, 60_exceptions.md R188.) -/
inductive Fault where
  /-- Raised by `HostMemRead` and `HostMemWrite` at an address at or beyond the memory's depth, which 10_state.md R21
  and 93_implementation_defined.md U9 put outside the interface. Safe: nothing is claimed of such a run (log 5). -/
  | noSuchAddress
  deriving DecidableEq, Repr

/-- Why a step has no meaning. -/
inductive Refusal where
  /-- Raised by an arm of `exec` whose command has no meaning yet. No arm raises it. Safe. -/
  | notModelled (mnemonic : String)
  /-- Raised by `RegRead` and `RegWrite` of a register number above 8, which 10_state.md R21 and
  93_implementation_defined.md U9 put outside the interface. Safe (log 5). -/
  | noSuchRegister
  /-- Raised by `RegWrite` and `HostMemWrite` of a value wider than the register or element: 10_state.md R21 has the value
  "already of the register's width". Safe (log 5). -/
  | valueTooWide
  deriving DecidableEq, Repr

/-- The machine. Registers and memories are those of 10_state.md R23 and R33; `CMD` stores nothing (R29) and `SENTINEL`
is a constant (R28), so neither has a field. -/
structure State where
  /-- `WIDTH`, register 2 (R24). -/
  width : Nat
  /-- `HEIGHT`, register 3 (R24). -/
  height : Nat
  /-- `CHANS`, register 4 (R25). -/
  chans : BitVec 3
  /-- `MLEN`, register 5 (R26). -/
  mlen : Nat
  /-- `BLEN`, register 6 (R26). -/
  blen : Nat
  /-- `CAPACITY`, register 7 (R27). -/
  capacity : Nat
  /-- `STATUS`, register 1 (R29). -/
  status : BitVec 8
  /-- The image memory `IMG` (R33). -/
  img : Memory 8
  /-- The message memory `MSG` (R33). -/
  msg : Memory 32
  /-- The bitstream memory `BITS` (R33). -/
  bits : Memory 1
  /-- The model's own field: the open parameters of 00_scope.md R8, which no step changes (log 1). -/
  params : Config.Params
  /-- The model's own field: the host's transactions still to come, the next one first (R21; log 2). -/
  host : List HostTxn
  /-- The model's own field: what the last performed transaction returned to the host (R21; log 3). -/
  reply : Option Nat
  deriving DecidableEq, Repr

/-- The machine after power-up, which is the same as `Reset` (10_state.md R35, 70_reset_and_hazards.md R210): every
register 0, nothing in the memories written yet, no transaction pending. `params` is a DESIGN CHOICE (log 1). -/
def State.reset : State :=
  { width := 0
    height := 0
    chans := 0#3
    mlen := 0
    blen := 0
    capacity := 0
    status := 0x00#8
    img := []
    msg := []
    bits := []
    params := Config.Params.unbounded
    host := []
    reply := none }

end Sys2Proof.Machine
end

