-- ==== Sys2Proof/Machine/Flags.lean ====
section
/-! DEFINITION. Register `STATUS`: its fields, the codes of results and faults, and the two ways a command writes it
(10_state.md R29, 60_exceptions.md R180, R184, R188). -/

namespace Sys2Proof.Machine

/-- The typed outcome of a command that ran (60_exceptions.md R180). -/
inductive Result where
  | ok
  | capacityExceeded
  | invalidCharacter
  | sentinelNotFound
  deriving DecidableEq, Repr

/-- A protocol violation by the host (60_exceptions.md R180). -/
inductive FaultCause where
  | illegalCommand
  | badConfig
  deriving DecidableEq, Repr

/-- The code of a result in `STATUS.RESULT` (60_exceptions.md R180). -/
def resultCode (r : Result) : BitVec 2 :=
  match r with
  | .ok => 0#2
  | .capacityExceeded => 1#2
  | .invalidCharacter => 2#2
  | .sentinelNotFound => 3#2

/-- The code of a fault in `STATUS.FCAUSE` (60_exceptions.md R180). -/
def causeCode (c : FaultCause) : BitVec 2 :=
  match c with
  | .illegalCommand => 1#2
  | .badConfig => 2#2

/-- `STATUS.RESULT`, bits 1:0 (10_state.md R29). -/
def resultField (st : BitVec 8) : BitVec 2 := st.extractLsb' 0 2

/-- `STATUS.DONE`, bit 2 (10_state.md R29). -/
def doneField (st : BitVec 8) : Bool := st.getLsbD 2

/-- `STATUS.FCAUSE`, bits 5:4 (10_state.md R29). -/
def fcauseField (st : BitVec 8) : BitVec 2 := st.extractLsb' 4 2

/-- `STATUS.FAULT`, bit 7 (10_state.md R29). -/
def faultField (st : BitVec 8) : Bool := st.getLsbD 7

/-- Ending a command: `RESULT <- code`, `DONE <- 1`, the fault fields as they were (60_exceptions.md R184). -/
def statusOfResult (r : Result) (st : BitVec 8) : BitVec 8 :=
  (st &&& 0xF8#8) ||| 0x04#8 ||| (resultCode r).setWidth 8

/-- Fault entry: `FAULT <- 1`, `FCAUSE <- cause`, `RESULT` and `DONE` as they were (60_exceptions.md R188). -/
def statusOfFault (c : FaultCause) (st : BitVec 8) : BitVec 8 :=
  (st &&& 0x4F#8) ||| 0x80#8 ||| ((causeCode c).setWidth 8 <<< 4)

end Sys2Proof.Machine
end

