-- ==== Sys2Proof/Machine/Ops.lean ====
section
/-! DEFINITION. The operations every command is made of: bit and byte conversion (00_scope.md R12), the constant
`SENTINEL` (10_state.md R28), the derived depths (00_scope.md R8), memory accesses (R13), ending a command
(60_exceptions.md R184), taking a fault (R188) and the only way back from one, `Reset` (R189). -/

namespace Sys2Proof.Machine

/-! Constants of 00_scope.md R7. -/

/-- `NUSED`: the channels of a pixel that carry a bit. -/
abbrev nUsed : Nat := 3

/-- `CHMAX`: the largest legal character code point. -/
abbrev chMax : Nat := 255

/-- `SLEN`: the sentinel's length in bits. -/
abbrev sentinelLength : Nat := 16

/-- The constant register `SENTINEL`, the one place the sentinel's pattern stands (10_state.md R28). -/
def sentinel : BitVec 16 := 0xFFFE#16

/-- `SENT`: the sentinel in stream order, most significant bit of `SENTINEL` first (30_encoding.md R73). -/
def sentinelBits : List Bit := (List.range sentinelLength).map fun t => bitAt sentinel (15 - t)

/-- `bits8`: a byte's bits, most significant first (00_scope.md R12). -/
def bits8 (b : Byte) : List Bit :=
  [bitAt b 7, bitAt b 6, bitAt b 5, bitAt b 4, bitAt b 3, bitAt b 2, bitAt b 1, bitAt b 0]

/-- `byte8`: the byte of eight bits, most significant first (00_scope.md R12). -/
def byte8 (t : List Bit) : Byte :=
  BitVec.ofNat 8 ((t.getD 0 0).toNat * 128 + (t.getD 1 0).toNat * 64 + (t.getD 2 0).toNat * 32
    + (t.getD 3 0).toNat * 16 + (t.getD 4 0).toNat * 8 + (t.getD 5 0).toNat * 4 + (t.getD 6 0).toNat * 2
    + (t.getD 7 0).toNat)

/-! Derived depths (00_scope.md R8, 10_state.md R33); `none` is unbounded. -/

/-- `MAXMSG = floor((MAXBITS - 16) / 8)`, the depth of `MSG`. -/
def maxMsg (P : Config.Params) : Option Nat := P.maxBits.map fun b => (b - 16) / 8

/-- `MAXPIX = floor(MAXBITS / 3)`, the depth of `IMG` in pixels. -/
def maxPix (P : Config.Params) : Option Nat := P.maxBits.map fun b => b / 3

/-- The depth of a memory in elements (10_state.md R33). -/
def depth (P : Config.Params) (sp : Space) : Option Nat :=
  match sp with
  | .img => (maxPix P).map fun n => n * 4
  | .msg => maxMsg P
  | .bits => P.maxBits

/-- `n` is at most a bound that may be absent. -/
def atMost (n : Nat) (bound : Option Nat) : Bool :=
  match bound with
  | none => true
  | some b => n ≤ b

/-- `n` is below a bound that may be absent. -/
def below (n : Nat) (bound : Option Nat) : Bool :=
  match bound with
  | none => true
  | some b => n < b

/-! Memory (20_memory.md R58): one element per access, no side effect. -/

/-- The canonical form of a memory: addresses strictly rising. An unlisted address reads as a free value
(`Config.powerUpImg` and its two fellows), so no listed element can be the one an unlisted address would show. -/
def Memory.wf {w : Nat} (m : Memory w) : Bool :=
  match m with
  | [] => true
  | [_] => true
  | (a, _) :: (b, v) :: rest => a < b && Memory.wf ((b, v) :: rest)

/-- The element last written at an address, if one was written. -/
def Memory.find {w : Nat} (m : Memory w) (a : Nat) : Option (BitVec w) :=
  match m with
  | [] => none
  | (b, v) :: rest => if a = b then some v else Memory.find rest a

/-- Reading one element: the last value written, or what power-up left there (20_memory.md R58, R61). -/
def Memory.read {w : Nat} (powerUp : Nat → BitVec w) (m : Memory w) (a : Nat) : BitVec w :=
  (Memory.find m a).getD (powerUp a)

/-- Writing one element, keeping the addresses rising. -/
def Memory.write {w : Nat} (m : Memory w) (a : Nat) (v : BitVec w) : Memory w :=
  match m with
  | [] => [(a, v)]
  | (b, u) :: rest =>
    if a < b then (a, v) :: (b, u) :: rest
    else if a = b then (a, v) :: rest
    else (b, u) :: Memory.write rest a v

/-- `MemWrite(space, addr, n, v)`: the elements of a sequence at consecutive addresses, ascending (00_scope.md R13). -/
def Memory.writeAll {w : Nat} (m : Memory w) (a : Nat) (vs : List (BitVec w)) : Memory w :=
  match vs with
  | [] => m
  | v :: rest => Memory.writeAll (Memory.write m a v) (a + 1) rest

/-- `IMG[a]`. -/
def imgAt (s : State) (a : Nat) : Byte := Memory.read Config.powerUpImg s.img a

/-- `MSG[i]`. -/
def msgAt (s : State) (i : Nat) : Char32 := Memory.read Config.powerUpMsg s.msg i

/-- `BITS[k]`. -/
def bitsAt (s : State) (k : Nat) : Bit := Memory.read Config.powerUpBits s.bits k

/-- `MSG[0..MLEN)`, the message (10_state.md R26). -/
def message (s : State) : List Char32 := (List.range s.mlen).map (msgAt s)

/-- `BITS[0..BLEN)`, the bitstream (10_state.md R26). -/
def bitstream (s : State) : List Bit := (List.range s.blen).map (bitsAt s)

/-- A produced bitstream goes to `BITS[0..len)` and its length to `BLEN` (41_pack_unpack.md R102). -/
def storeBitstream (r : List Bit) (s : State) : State :=
  { s with bits := Memory.writeAll s.bits 0 r, blen := r.length }

/-- A recovered message goes to `MSG[0..len)`, each byte zero-extended to `CPW` bits, and its length to `MLEN`
(41_pack_unpack.md R107, R108). -/
def storeMessage (r : List Byte) (s : State) : State :=
  { s with msg := Memory.writeAll s.msg 0 (r.map fun b => b.setWidth 32), mlen := r.length }

/-! Ending a command, taking a fault, and `Reset`. -/

/-- `STATUS.FAULT = 1`. -/
def faulted (s : State) : Bool := faultField s.status

/-- `done OK` and `raise Result(code)` (60_exceptions.md R184). -/
def finish (r : Result) (s : State) : State := { s with status := statusOfResult r s.status }

/-- `raise Fault(cause)`: the two fault fields of `STATUS` and nothing else (60_exceptions.md R188). -/
def raiseFault (c : FaultCause) (s : State) : State := { s with status := statusOfFault c s.status }

/-- `Reset`: every register to its reset value, the memories untouched (10_state.md R35, 70_reset_and_hazards.md R210).
It is the one event that clears a fault (60_exceptions.md R189). -/
def resetRegisters (s : State) : State :=
  { s with
    width := 0, height := 0, chans := 0#3, mlen := 0, blen := 0, capacity := 0, status := 0x00#8 }

/-- How every command starts: ignored while `FAULT` is 1 (60_exceptions.md R189), then all operand checks, before any
state is written (R187), then its effect. -/
def runCommand (operandsOk : Bool) (effect : State → State) (s : State) : Host.Outcome State Fault Refusal :=
  if faulted s then .next s
  else if operandsOk then .next (effect s)
  else .next (raiseFault .badConfig s)

end Sys2Proof.Machine
end

