-- ==== Sys2Proof/Machine/Operands.lean ====
section
/-! DEFINITION. The implicit operands of the commands: the operand checks of 60_exceptions.md R187, column by column,
and the address of a channel value (20_memory.md R52). -/

namespace Sys2Proof.Machine

/-- `WIDTH * HEIGHT`, the number of pixels. -/
def pixelCount (s : State) : Nat := s.width * s.height

/-- `WIDTH >= 1` and `HEIGHT >= 1`. -/
def dimensionsOk (s : State) : Bool := 1 ≤ s.width && 1 ≤ s.height

/-- `CHANS` is 3 or 4. -/
def chansOk (s : State) : Bool := s.chans == 3#3 || s.chans == 4#3

/-- `WIDTH * HEIGHT <= MAXPIX`. -/
def imageFits (s : State) : Bool := atMost (pixelCount s) (maxPix s.params)

/-- `MLEN <= MAXMSG`. -/
def messageFits (s : State) : Bool := atMost s.mlen (maxMsg s.params)

/-- `BLEN <= MAXBITS`. -/
def bitstreamFits (s : State) : Bool := atMost s.blen s.params.maxBits

/-- The three checks of every command that touches `IMG`. -/
def imageOk (s : State) : Bool := dimensionsOk s && chansOk s && imageFits s

/-- The address of channel `c` of pixel `p`, `p * CHANS + c` (20_memory.md R52). -/
def channelAddr (s : State) (p c : Nat) : Nat := p * s.chans.toNat + c

end Sys2Proof.Machine
end

