-- ==== Sys2Proof/Machine/Capacity.lean ====
section
/-! DEFINITION. The capacity validator, unit CAP, and command CHKCAP (40_capacity.md). -/

namespace Sys2Proof.Machine

/-- The CAP unit: the capacity, and whether the bitstream length exceeds it (40_capacity.md R90). -/
def capUnit (width height bitstreamLength : Nat) : Nat × Bool :=
  let cap := width * height * 3
  (cap, decide (cap < bitstreamLength))

/-- Every command that computes the capacity writes it to `CAPACITY`, whether or not the check passes (R91). -/
def writeCapacity (s : State) : State := { s with capacity := (capUnit s.width s.height s.blen).1 }

/-- The check's answer on the registers (R92). -/
def capacityExceeded (s : State) : Bool := (capUnit s.width s.height s.blen).2

/-- CHKCAP after its operand checks (R92). -/
def chkcapEffect (s : State) : State :=
  if capacityExceeded s then finish .capacityExceeded (writeCapacity s) else finish .ok (writeCapacity s)

/-- CHKCAP (40_capacity.md R92). -/
def execChkcap (s : State) : Host.Outcome State Fault Refusal :=
  runCommand (dimensionsOk s && bitstreamFits s) chkcapEffect s

end Sys2Proof.Machine
end

