-- ==== Sys2Proof/Machine/PackUnpack.lean ====
section
/-! DEFINITION. The bit-packer and the bit-unpacker, units PACK and UNPK, and commands PACK and UNPACK
(41_pack_unpack.md). -/

namespace Sys2Proof.Machine

/-- A legal character: code point 0 to 255 (41_pack_unpack.md R101). -/
def legalChar (c : Char32) : Bool := c.toNat ≤ chMax

/-- The data bits of a message: each character's byte, most significant bit first, in message order (R100). -/
def dataBits (M : List Char32) : List Bit := M.flatMap fun c => bits8 (c.setWidth 8)

/-- `pack`: validity first, then the data bits and one sentinel (R100). -/
def pack (M : List Char32) : Except Result (List Bit) :=
  if M.all legalChar then .ok (dataBits M ++ sentinelBits) else .error .invalidCharacter

/-- The sentinel search from stream position `j` on: the first position at which sixteen bits equal the sentinel
(R104). A rest of fewer than sixteen bits equals it at no position. -/
def findSentinelFrom (j : Nat) (B : List Bit) : Option Nat :=
  match B with
  | [] => none
  | b :: rest => if (b :: rest).take sentinelLength = sentinelBits then some j else findSentinelFrom (j + 1) rest

/-- `find_sentinel`: the smallest match, at any bit offset (R104). -/
def findSentinel (B : List Bit) : Option Nat := findSentinelFrom 0 B

/-- The `n` whole characters at the start of a bitstream, in runs of eight counted from bit 0 (R105). -/
def charactersOf (n : Nat) (B : List Bit) : List Byte :=
  (List.range n).map fun i => byte8 ((B.drop (8 * i)).take 8)

/-- `unpack`: the whole characters before the first sentinel; fewer than eight bits before it are dropped (R105). -/
def unpack (B : List Bit) : Except Result (List Byte) :=
  match findSentinel B with
  | none => .error .sentinelNotFound
  | some j => .ok (charactersOf (j / 8) B)

/-- PACK after its operand check (R102). On an error `BITS` and `BLEN` are unchanged. -/
def packEffect (s : State) : State :=
  match pack (message s) with
  | .error e => finish e s
  | .ok r => finish .ok (storeBitstream r s)

/-- UNPACK after its operand check (R108). On an error `MSG` and `MLEN` are unchanged. -/
def unpackEffect (s : State) : State :=
  match unpack (bitstream s) with
  | .error e => finish e s
  | .ok r => finish .ok (storeMessage r s)

/-- PACK (41_pack_unpack.md R102). -/
def execPack (s : State) : Host.Outcome State Fault Refusal :=
  runCommand (messageFits s) packEffect s

/-- UNPACK (41_pack_unpack.md R108). -/
def execUnpack (s : State) : Host.Outcome State Fault Refusal :=
  runCommand (bitstreamFits s) unpackEffect s

end Sys2Proof.Machine
end

