-- ==== Sys2Proof/Machine/ExtractDecode.lean ====
section
/-! DEFINITION. The pixel bit-extractor, unit EXT, and commands EXTRACT and DECODE (43_extract_decode.md). -/

namespace Sys2Proof.Machine

/-- `ext_ch`: the channel value's least significant bit (43_extract_decode.md R140). -/
def extCh (v : Byte) : Bit := bitAt v 0

/-- `ext_pixel`: the unit's contract on one pixel, always three bits, channel 3 never selected (R141). -/
def extPixel (px : List Byte) : List Bit := (List.range nUsed).map fun c => extCh (px.getD c 0)

/-- One channel's visit of the decode walk: cursor and bitstream memory before and after (R142). -/
def extractChannel (s : State) (p : Nat) (w : Nat × Memory 1) (c : Nat) : Nat × Memory 1 :=
  let (k, m) := w
  (k + 1, Memory.write m k (extCh (imgAt s (channelAddr s p c))))

/-- One pixel's visit of the decode walk: channels 0, 1, 2 in this order (R142). -/
def extractPixel (s : State) (w : Nat × Memory 1) (p : Nat) : Nat × Memory 1 :=
  (List.range nUsed).foldl (extractChannel s p) w

/-- The decode walk over all pixels in ascending order, with no early stop, and `BLEN` (R142, R144). -/
def extractWalk (s : State) : State :=
  let w := (List.range (pixelCount s)).foldl (extractPixel s) (0, s.bits)
  { s with bits := w.2, blen := w.1 }

/-- EXTRACT after its operand checks; it has no error of its own (R144). -/
def extractEffect (s : State) : State := finish .ok (extractWalk s)

/-- DECODE after its operand checks: the walk, then `unpack` on the stream just stored (R148). -/
def decodeEffect (s : State) : State := unpackEffect (extractWalk s)

/-- EXTRACT (43_extract_decode.md R144). -/
def execExtract (s : State) : Host.Outcome State Fault Refusal :=
  runCommand (imageOk s) extractEffect s

/-- DECODE (43_extract_decode.md R148). -/
def execDecode (s : State) : Host.Outcome State Fault Refusal :=
  runCommand (imageOk s) decodeEffect s

end Sys2Proof.Machine
end

