-- ==== Sys2Proof/Machine/InsertEncode.lean ====
section
/-! DEFINITION. The pixel bit-inserter, unit INS, and commands EMBED and ENCODE (42_insert_encode.md). -/

namespace Sys2Proof.Machine

/-- `ins_ch`: the channel value with its least significant bit replaced (42_insert_encode.md R120). -/
def insCh (v : Byte) (b : Bit) : Byte := (v &&& 0xFE#8) ||| b.setWidth 8

/-- `ins_pixel`: the unit's contract on one pixel of three or four channel values, `nv` valid bits going to the lowest
channels, alpha copied (R121). -/
def insPixel (px : List Byte) (b : List Bit) (nv : Nat) : List Byte :=
  px.mapIdx fun c v => if c < nUsed ∧ c < nv then insCh v (b.getD c 0) else v

/-- One channel's visit of the encode walk: cursor and image before and after (R122). -/
def embedChannel (s : State) (L p : Nat) (w : Nat × Memory 8) (c : Nat) : Nat × Memory 8 :=
  let (k, m) := w
  let a := channelAddr s p c
  if k < L then (k + 1, Memory.write m a (insCh (Memory.read Config.powerUpImg m a) (bitsAt s k))) else (k, m)

/-- One pixel's visit of the encode walk: channels 0, 1, 2 in this order (R122). -/
def embedPixel (s : State) (L : Nat) (w : Nat × Memory 8) (p : Nat) : Nat × Memory 8 :=
  (List.range nUsed).foldl (embedChannel s L p) w

/-- The encode walk over all pixels in ascending order, the cursor starting at 0 (R122). -/
def embedWalk (L : Nat) (s : State) : State :=
  { s with img := ((List.range (pixelCount s)).foldl (embedPixel s L) (0, s.img)).2 }

/-- EMBED after its operand checks: the capacity check, then the walk; nothing of the image on an error (R126). -/
def embedEffect (s : State) : State :=
  if capacityExceeded s then finish .capacityExceeded (writeCapacity s)
  else finish .ok (embedWalk s.blen (writeCapacity s))

/-- ENCODE after its operand checks: pack, then capacity and walk on the bitstream just stored (R131). -/
def encodeEffect (s : State) : State :=
  match pack (message s) with
  | .error e => finish e s
  | .ok r => embedEffect (storeBitstream r s)

/-- EMBED (42_insert_encode.md R126). -/
def execEmbed (s : State) : Host.Outcome State Fault Refusal :=
  runCommand (imageOk s && bitstreamFits s) embedEffect s

/-- ENCODE (42_insert_encode.md R131). -/
def execEncode (s : State) : Host.Outcome State Fault Refusal :=
  runCommand (imageOk s && messageFits s) encodeEffect s

end Sys2Proof.Machine
end

