-- ==== Sys2Proof/Machine/HostPort.lean ====
section
/-! DEFINITION. The host port: the five transactions of 10_state.md R21 on the register file of R23 and the memories of
R33. A write to `CMD` takes the place of an instruction fetch (R30). -/

namespace Sys2Proof.Machine

/-- `v` fits a register of `w` bits, `none` being a width without bound (00_scope.md R8). -/
def fitsWidth (w : Option Nat) (v : Nat) : Bool :=
  match w with
  | none => true
  | some n => v < 2 ^ n

/-- The width of `CAPACITY`, `2*DIMW + 2` (10_state.md R27). -/
def capacityWidth (P : Config.Params) : Option Nat := P.dimw.map fun d => 2 * d + 2

/-- The width in bits of register `n` (10_state.md R23); the outer `none` is a number that names no register. -/
def regWidth (P : Config.Params) (n : Nat) : Option (Option Nat) :=
  match n with
  | 0 => some (some 8)
  | 1 => some (some 8)
  | 2 => some P.dimw
  | 3 => some P.dimw
  | 4 => some (some 3)
  | 5 => some P.lenw
  | 6 => some P.lenw
  | 7 => some (capacityWidth P)
  | 8 => some (some 16)
  | _ => none

/-- What `RegRead(n)` returns; `CMD` reads 0 (10_state.md R23, R29, R37). -/
def readReg (n : Nat) (s : State) : Option Nat :=
  match n with
  | 0 => some 0
  | 1 => some s.status.toNat
  | 2 => some s.width
  | 3 => some s.height
  | 4 => some s.chans.toNat
  | 5 => some s.mlen
  | 6 => some s.blen
  | 7 => some s.capacity
  | 8 => some sentinel.toNat
  | _ => none

/-- A host write of a register other than `CMD`: `STATUS`, `CAPACITY` and `SENTINEL` ignore it, the others store the
value and nothing else (10_state.md R37). -/
def writeReg (n v : Nat) (s : State) : State :=
  match n with
  | 2 => { s with width := v }
  | 3 => { s with height := v }
  | 4 => { s with chans := BitVec.ofNat 3 v }
  | 5 => { s with mlen := v }
  | 6 => { s with blen := v }
  | _ => s

/-- A write of a word to `CMD`: ignored while `FAULT` is 1, else decoded, and an illegal word raises `IllegalCommand`
(60_exceptions.md R186, R189, R190). -/
def command (w : Byte) (s : State) : Host.Outcome State Fault Refusal :=
  if faulted s then .next s
  else
    match decode w with
    | .ok i => exec i s
    | .error _ => .next (raiseFault .illegalCommand s)

/-- `RegWrite(n, v)` (10_state.md R21). -/
def regWrite (n v : Nat) (s : State) : Host.Outcome State Fault Refusal :=
  match regWidth s.params n with
  | none => .refused .noSuchRegister
  | some w =>
    if fitsWidth w v then
      if n = 0 then command (BitVec.ofNat 8 v) s else .next (writeReg n v s)
    else .refused .valueTooWide

/-- `RegRead(n)` (10_state.md R21). -/
def regRead (n : Nat) (s : State) : Host.Outcome State Fault Refusal :=
  match readReg n s with
  | none => .refused .noSuchRegister
  | some v => .next { s with reply := some v }

/-- The width of an element of a space (20_memory.md R50). -/
def elementWidth (sp : Space) : Nat :=
  match sp with
  | .img => 8
  | .msg => 32
  | .bits => 1

/-- The element at an address, as a number. -/
def elementAt (sp : Space) (a : Nat) (s : State) : Nat :=
  match sp with
  | .img => (imgAt s a).toNat
  | .msg => (msgAt s a).toNat
  | .bits => (bitsAt s a).toNat

/-- One element written. -/
def writeElement (sp : Space) (a v : Nat) (s : State) : State :=
  match sp with
  | .img => { s with img := Memory.write s.img a (BitVec.ofNat 8 v) }
  | .msg => { s with msg := Memory.write s.msg a (BitVec.ofNat 32 v) }
  | .bits => { s with bits := Memory.write s.bits a (BitVec.ofNat 1 v) }

/-- `HostMemRead(space, addr)` (10_state.md R21). -/
def memRead (sp : Space) (a : Nat) (s : State) : Host.Outcome State Fault Refusal :=
  if below a (depth s.params sp) then .next { s with reply := some (elementAt sp a s) }
  else .fault .noSuchAddress

/-- `HostMemWrite(space, addr, v)` (10_state.md R21). -/
def memWrite (sp : Space) (a v : Nat) (s : State) : Host.Outcome State Fault Refusal :=
  if below a (depth s.params sp) then
    if v < 2 ^ elementWidth sp then .next (writeElement sp a v s) else .refused .valueTooWide
  else .fault .noSuchAddress

/-- One host transaction, performed whole (10_state.md R21). -/
def transact (t : HostTxn) (s : State) : Host.Outcome State Fault Refusal :=
  match t with
  | .regRead n => regRead n s
  | .regWrite n v => regWrite n v s
  | .memRead sp a => memRead sp a s
  | .memWrite sp a v => memWrite sp a v s
  | .reset => .next (resetRegisters s)

end Sys2Proof.Machine
end

