-- ==== Sys2Proof/Machine/Step.lean ====
section
/-! DEFINITION. One step of the machine: the next host transaction, or nothing while the core is idle (10_state.md R20,
R21, 60_exceptions.md R198). -/

namespace Sys2Proof.Machine

/-- The host's next transaction is taken off the list and performed; with none pending the core is idle and holds its
state. `reply` is cleared first, so that it shows what this transaction returned (log 2, log 3). -/
def step (s : State) : Host.Outcome State Fault Refusal :=
  match s.host with
  | [] => .next s
  | t :: rest => transact t { s with host := rest, reply := none }

/-- The state in which the next step runs the command word `w`: its write to `CMD` is the host's next transaction
(log 2). The core fetches nothing (10_state.md R30), so this is all that running a command takes. -/
def State.withFetchWord (s : State) (nbits w : Nat) : State :=
  { s with host := .regWrite 0 (w % 2 ^ min nbits 8) :: s.host }

end Sys2Proof.Machine
end

