-- ==== Sys2Proof/Safety.lean ====
section
/-! DEFINITION. What a sound state of the core is: the widths of 10_state.md R23, the `STATUS` values of R29, the depths
of R33, the parameters of 00_scope.md R8, and the memories' canonical form. Reset gives such a state and every step
keeps it. -/

namespace Sys2Proof.Machine

/-- Every listed address lies below the memory's depth. -/
def Memory.within {w : Nat} (bound : Option Nat) (m : Memory w) : Bool := m.all fun e => below e.1 bound

/-- The values `STATUS` can take (10_state.md R29): reserved bits 3 and 6 read 0, `FCAUSE` 3 is never produced, `FAULT` and
a cause come together, and no error result stands before a command has completed. -/
def statusWf (st : BitVec 8) : Bool :=
  !st.getLsbD 3 && !st.getLsbD 6 && fcauseField st != 3#2 && (faultField st == (fcauseField st != 0#2))
    && (doneField st || resultField st == 0#2)

/-- A sound state. -/
structure State.Inv (s : State) : Prop where
  /-- The parameters are a choice that 00_scope.md R8 allows. -/
  params : s.params.wf = true
  /-- `WIDTH` fits `DIMW` bits (10_state.md R23). -/
  width : fitsWidth s.params.dimw s.width = true
  /-- `HEIGHT` fits `DIMW` bits. -/
  height : fitsWidth s.params.dimw s.height = true
  /-- `MLEN` fits `LENW` bits. -/
  mlen : fitsWidth s.params.lenw s.mlen = true
  /-- `BLEN` fits `LENW` bits. -/
  blen : fitsWidth s.params.lenw s.blen = true
  /-- `CAPACITY` fits `2*DIMW + 2` bits (10_state.md R27). -/
  capacity : fitsWidth (capacityWidth s.params) s.capacity = true
  /-- `STATUS` holds one of its values. -/
  status : statusWf s.status = true
  /-- The memories are in canonical form. -/
  imgWf : Memory.wf s.img = true
  msgWf : Memory.wf s.msg = true
  bitsWf : Memory.wf s.bits = true
  /-- Nothing was ever written at or beyond a memory's depth (10_state.md R33, 20_memory.md R62). -/
  imgWithin : Memory.within (depth s.params .img) s.img = true
  msgWithin : Memory.within (depth s.params .msg) s.msg = true
  bitsWithin : Memory.within (depth s.params .bits) s.bits = true

/-- A state every claim about a run may speak of (60_exceptions.md R189: "every claim about a run takes
`STATUS.FAULT = 0` as premise and conclusion"). -/
def State.Safe (s : State) : Prop := s.Inv ∧ faulted s = false

end Sys2Proof.Machine
end

