-- ==== Sys2Proof/Certificates/Slice0/Obligations.lean ====
section
/-! DEFINITION. The statements about the model, in the spec's own terms. The vocabulary of the first part is written from
the rules, not from the meanings in Machine/, so that a statement compares the two. -/

namespace Sys2Proof.Claims

open Sys2Proof Sys2Proof.Machine

/-- The word of each command, as the opcode map writes it (30_encoding.md R80). -/
def commandWord (i : Instr) : Byte :=
  match i with
  | .chkcap => 0x01#8
  | .pack => 0x02#8
  | .unpack => 0x03#8
  | .embed => 0x04#8
  | .extract => 0x05#8
  | .encode => 0x06#8
  | .decode => 0x07#8

/-- `t` is the end of a command started in `s` with result code `r`: `RESULT` and `DONE` set, the rest of `STATUS` kept
(60_exceptions.md R184). -/
def Ended (r : BitVec 2) (s t : State) : Prop :=
  resultField t.status = r ∧ doneField t.status = true
    ∧ faultField t.status = faultField s.status ∧ fcauseField t.status = fcauseField s.status
    ∧ t.status.getLsbD 3 = s.status.getLsbD 3 ∧ t.status.getLsbD 6 = s.status.getLsbD 6

/-- `t` is `s` after fault entry with cause `c`: `FAULT` and `FCAUSE` set, everything else kept (60_exceptions.md R188). -/
def FaultTaken (c : BitVec 2) (s t : State) : Prop :=
  t = { s with status := t.status } ∧ faultField t.status = true ∧ fcauseField t.status = c
    ∧ resultField t.status = resultField s.status ∧ doneField t.status = doneField s.status
    ∧ t.status.getLsbD 3 = s.status.getLsbD 3 ∧ t.status.getLsbD 6 = s.status.getLsbD 6

/-! The rows of the check table (60_exceptions.md R187). -/

/-- `WIDTH >= 1` and `HEIGHT >= 1`. -/
def Dimensions (s : State) : Prop := 1 ≤ s.width ∧ 1 ≤ s.height

/-- `CHANS` is 3 or 4. -/
def Channels (s : State) : Prop := s.chans = 3#3 ∨ s.chans = 4#3

/-- `WIDTH * HEIGHT <= MAXPIX = floor(MAXBITS / 3)`. -/
def ImageInDepth (s : State) : Prop := ∀ b, s.params.maxBits = some b → s.width * s.height ≤ b / 3

/-- `MLEN <= MAXMSG = floor((MAXBITS - 16) / 8)`. -/
def MessageInDepth (s : State) : Prop := ∀ b, s.params.maxBits = some b → s.mlen ≤ (b - 16) / 8

/-- `BLEN <= MAXBITS`. -/
def BitstreamInDepth (s : State) : Prop := ∀ b, s.params.maxBits = some b → s.blen ≤ b

/-- The columns of the check table (60_exceptions.md R187). -/
def OperandsLegal (i : Instr) (s : State) : Prop :=
  match i with
  | .chkcap => Dimensions s ∧ BitstreamInDepth s
  | .pack => MessageInDepth s
  | .unpack => BitstreamInDepth s
  | .embed => Dimensions s ∧ Channels s ∧ ImageInDepth s ∧ BitstreamInDepth s
  | .extract => Dimensions s ∧ Channels s ∧ ImageInDepth s
  | .encode => Dimensions s ∧ Channels s ∧ ImageInDepth s ∧ MessageInDepth s
  | .decode => Dimensions s ∧ Channels s ∧ ImageInDepth s

/-- How every command starts: ignored while faulted, `BadConfig` on an illegal operand. -/
def StartsGuarded (i : Instr) (s : State) : Prop :=
  (faulted s = true → exec i s = .next s) ∧
  (faulted s = false → ¬OperandsLegal i s → ∃ t, exec i s = .next t ∧ FaultTaken 2#2 s t)

/-! Data in the memories. -/

/-- `3 * WIDTH * HEIGHT`, the number of carrying channels, which is the capacity. -/
def carriers (s : State) : Nat := 3 * (s.width * s.height)

/-- The `IMG` address of the channel that carries bit `k` (30_encoding.md R74). -/
def carrier (s : State) (k : Nat) : Nat := k / 3 * s.chans.toNat + k % 3

/-- Bit 0 of the channel that carries bit `k`. -/
def lsb (s : State) (k : Nat) : Bit := bitAt (imgAt s (carrier s k)) 0

/-- Every character of the message is at most 255 (41_pack_unpack.md R101). -/
def LegalMessage (s : State) : Prop := ∀ i, i < s.mlen → (msgAt s i).toNat ≤ 255

/-- `BITS` of `t` holds the packed message of `s` in stream order, and beyond it what `s` held (30_encoding.md R70,
20_memory.md R59). -/
def HoldsPacked (s t : State) : Prop :=
  (∀ i u, i < s.mlen → u < 8 → bitsAt t (8 * i + u) = bitAt (msgAt s i) (7 - u))
    ∧ (∀ u, u < 15 → bitsAt t (8 * s.mlen + u) = 1#1) ∧ bitsAt t (8 * s.mlen + 15) = 0#1
    ∧ ∀ k, 8 * s.mlen + 16 ≤ k → bitsAt t k = bitsAt s k

/-- `IMG` of `t` is that of `s` with the bitstream of `t` in the carrying channels, every other element kept bit for bit
(42_insert_encode.md R123, R124). -/
def HoldsEmbedded (s t : State) : Prop :=
  (∀ k, k < t.blen → k < carriers s →
    imgAt t (carrier s k) = (imgAt s (carrier s k) &&& 0xFE#8) ||| (bitsAt t k).setWidth 8)
    ∧ ∀ a, (∀ k, k < t.blen → k < carriers s → a ≠ carrier s k) → imgAt t a = imgAt s a

/-- `BITS` of `t` holds the least significant bits of the image of `s`, and beyond them what `s` held
(43_extract_decode.md R143). -/
def HoldsExtracted (s t : State) : Prop :=
  (∀ k, k < carriers s → bitsAt t k = lsb s k) ∧ ∀ k, carriers s ≤ k → bitsAt t k = bitsAt s k

/-- A sentinel starts at bit `j` of the bitstream `BITS[0..BLEN)` (41_pack_unpack.md R104). -/
def SentinelAt (s : State) (j : Nat) : Prop :=
  j + 16 ≤ s.blen ∧ (∀ u, u < 15 → bitsAt s (j + u) = 1#1) ∧ bitsAt s (j + 15) = 0#1

/-- The first sentinel of the bitstream starts at bit `j`. -/
def FirstSentinelAt (s : State) (j : Nat) : Prop := SentinelAt s j ∧ ∀ i, i < j → ¬SentinelAt s i

/-- A sentinel starts at bit `j` of the image's least significant bits in walk order. -/
def ImageSentinelAt (s : State) (j : Nat) : Prop :=
  j + 16 ≤ carriers s ∧ (∀ u, u < 15 → lsb s (j + u) = 1#1) ∧ lsb s (j + 15) = 0#1

/-- `MSG` and `MLEN` of `t` hold the whole characters before bit `j` of the bitstream of `b`, and beyond them `MSG` what
`s` held (41_pack_unpack.md R105, R107, R108). -/
def HoldsRecovered (b s t : State) (j : Nat) : Prop :=
  t.mlen = j / 8
    ∧ (∀ i, i < j / 8 → (msgAt t i).toNat ≤ 255 ∧ ∀ u, u < 8 → bitAt (msgAt t i) (7 - u) = bitsAt b (8 * i + u))
    ∧ ∀ i, j / 8 ≤ i → msgAt t i = msgAt s i

/-- Data bit `k` of the message, without any sentinel (41_pack_unpack.md R111). -/
def dataBit (s : State) (k : Nat) : Bit := bitAt (msgAt s (k / 8)) (7 - k % 8)

/-- The sentinel's pattern stands inside the message's own data bits from bit `j` on (41_pack_unpack.md R111). -/
def CollisionAt (s : State) (j : Nat) : Prop :=
  j + 16 ≤ 8 * s.mlen ∧ (∀ u, u < 15 → dataBit s (j + u) = 1#1) ∧ dataBit s (j + 15) = 0#1

/-- The sentinel's pattern in a sequence of bits from bit `j` on. -/
def PatternAt (B : List Bit) (j : Nat) : Prop := (∀ u, u < 15 → B[j + u]? = some 1#1) ∧ B[j + 15]? = some 0#1

/-- `u` has the image, the geometry and the sizes of `t` and is not faulted; its message, bitstream and status are its
own. -/
def SameImage (t u : State) : Prop :=
  (∀ a, imgAt u a = imgAt t a) ∧ u.width = t.width ∧ u.height = t.height ∧ u.chans = t.chans ∧ u.params = t.params
    ∧ faulted u = false

/-- `u` has the bitstream `BITS[0..BLEN)` and the sizes of `t` and is not faulted; its message, image, geometry and status
are its own. -/
def SameBitstream (t u : State) : Prop :=
  (∀ k, k < t.blen → bitsAt u k = bitsAt t k) ∧ u.blen = t.blen ∧ u.params = t.params ∧ faulted u = false

/-- The `CHANS` bytes of pixel `p` (30_encoding.md R76). -/
def pixel (s : State) (p : Nat) : List Byte := (List.range s.chans.toNat).map fun c => imgAt s (p * s.chans.toNat + c)

/-! Causes of the three error results (60_exceptions.md R181 to R183). -/

/-- PACK or ENCODE finds a character above 255. -/
def BadCharacter (i : Instr) (s : State) : Prop := (i = .pack ∨ i = .encode) ∧ ¬LegalMessage s

/-- CHKCAP, EMBED or ENCODE finds a bitstream longer than the capacity. -/
def TooLong (i : Instr) (s : State) : Prop :=
  ((i = .chkcap ∨ i = .embed) ∧ carriers s < s.blen) ∨ (i = .encode ∧ carriers s < 8 * s.mlen + 16)

/-- UNPACK or DECODE finds no sentinel. -/
def NoSentinel (i : Instr) (s : State) : Prop :=
  (i = .unpack ∧ ∀ j, ¬SentinelAt s j) ∨ (i = .decode ∧ ∀ j, ¬ImageSentinelAt s j)

/-! The host interface (10_state.md R21, R23). -/

/-- `v` fits a width that may be unbounded. -/
def Fits (width : Option Nat) (v : Nat) : Prop := ∀ n, width = some n → v < 2 ^ n

/-- The transaction is part of the interface: a register of R23 and a value of its width, an address below the depth of
R33 and a value of the element's width. -/
def InInterface (P : Config.Params) (t : HostTxn) : Prop :=
  match t with
  | .regRead n => n ≤ 8
  | .regWrite n v =>
    (n = 0 ∧ v < 256) ∨ (n = 1 ∧ v < 256) ∨ ((n = 2 ∨ n = 3) ∧ Fits P.dimw v) ∨ (n = 4 ∧ v < 8)
      ∨ ((n = 5 ∨ n = 6) ∧ Fits P.lenw v) ∨ (n = 7 ∧ ∀ d, P.dimw = some d → v < 2 ^ (2 * d + 2)) ∨ (n = 8 ∧ v < 65536)
  | .memRead .img a => ∀ b, P.maxBits = some b → a < b / 3 * 4
  | .memRead .msg a => ∀ b, P.maxBits = some b → a < (b - 16) / 8
  | .memRead .bits a => ∀ b, P.maxBits = some b → a < b
  | .memWrite .img a v => (∀ b, P.maxBits = some b → a < b / 3 * 4) ∧ v < 256
  | .memWrite .msg a v => (∀ b, P.maxBits = some b → a < (b - 16) / 8) ∧ v < 2 ^ 32
  | .memWrite .bits a v => (∀ b, P.maxBits = some b → a < b) ∧ v < 2
  | .reset => True

/-- The state with its first transaction taken off the host's list. -/
def taken (s : State) (rest : List HostTxn) : State := { s with host := rest, reply := none }

end Sys2Proof.Claims

open Sys2Proof Sys2Proof.Machine Sys2Proof.Claims

/-! Encoding. -/

/-- 30_encoding.md R80: the decoder is the opcode map, and every other word is illegal. -/
def Obligations.DecoderIsTheOpcodeMap : Prop :=
  (∀ w i, decode w = .ok i ↔ w = commandWord i) ∧
  ∀ w, (∃ e, decode w = .error e) ↔ ∀ i, w ≠ commandWord i

/-- Derived from 30_encoding.md part 2: the encoder writes the opcode map's word and the decoder reads it back. -/
def Obligations.EncoderAgreesWithDecoder : Prop :=
  ∀ i, encode i = commandWord i ∧ decode (encode i) = .ok i
    ∧ decodeTableWord 8 (encode i).toNat = some i

/-- A sanity statement on words written out bit by bit from R80: one of each family, and two illegal ones. -/
def Obligations.WordsWrittenOutDecode : Prop :=
  decode 0b00000001#8 = .ok .chkcap ∧ decode 0b00000010#8 = .ok .pack ∧ decode 0b00000011#8 = .ok .unpack
    ∧ decode 0b00000110#8 = .ok .encode ∧ decode 0b00000111#8 = .ok .decode
    ∧ decode 0b00000000#8 = .error .noSuchOp ∧ decode 0b10000110#8 = .error .zeroFieldSet

/-- 30_encoding.md R82, 60_exceptions.md R186: an illegal word written to `CMD` raises `IllegalCommand` and changes
nothing but the two fault fields; there are 249 such words. -/
def Obligations.IllegalWordRaisesIllegalCommand : Prop :=
  (∀ s w rest, s.host = .regWrite 0 w :: rest → w < 256 → (w = 0 ∨ 8 ≤ w) → faulted s = false →
    ∃ t, step s = .next t ∧ FaultTaken 1#2 (taken s rest) t) ∧
  ((List.range 256).filter fun w => w == 0 || 8 ≤ w).length = 249

/-! The step and the host interface. -/

/-- Derived from 10_state.md R21, R30: a step whose transaction writes a command's word to `CMD` is that command's
`exec`; an idle core holds its state; `withFetchWord` places such a write first. -/
def Obligations.StepRunsTheDecodedCommand : Prop :=
  (∀ s w rest i, s.host = .regWrite 0 w.toNat :: rest → decode w = .ok i → step s = exec i (taken s rest)) ∧
  (∀ s, s.host = [] → step s = .next s) ∧
  ∀ s w i, decode w = .ok i → step (s.withFetchWord 8 w.toNat) = exec i (taken s s.host)

/-- Derived from 10_state.md R23, R29: what `RegRead` returns for each of the nine registers. -/
def Obligations.RegisterReadsReturn : Prop :=
  ∀ s n rest, s.host = .regRead n :: rest →
    (n = 0 → step s = .next { s with host := rest, reply := some 0 }) ∧
    (n = 1 → step s = .next { s with host := rest, reply := some s.status.toNat }) ∧
    (n = 2 → step s = .next { s with host := rest, reply := some s.width }) ∧
    (n = 3 → step s = .next { s with host := rest, reply := some s.height }) ∧
    (n = 4 → step s = .next { s with host := rest, reply := some s.chans.toNat }) ∧
    (n = 5 → step s = .next { s with host := rest, reply := some s.mlen }) ∧
    (n = 6 → step s = .next { s with host := rest, reply := some s.blen }) ∧
    (n = 7 → step s = .next { s with host := rest, reply := some s.capacity }) ∧
    (n = 8 → step s = .next { s with host := rest, reply := some 0xFFFE })

/-- 10_state.md R37: host writes to `STATUS`, `CAPACITY` and `SENTINEL` are ignored, `CMD` reads 0, and writes to the
operand registers store the value and do nothing else. -/
def Obligations.HostRegisterWritesOnlyStore : Prop :=
  (∀ s n v rest, s.host = .regWrite n v :: rest →
    (n = 1 → v < 256 → step s = .next (taken s rest)) ∧
    (n = 2 → Fits s.params.dimw v → step s = .next { taken s rest with width := v }) ∧
    (n = 3 → Fits s.params.dimw v → step s = .next { taken s rest with height := v }) ∧
    (n = 4 → v < 8 → step s = .next { taken s rest with chans := BitVec.ofNat 3 v }) ∧
    (n = 5 → Fits s.params.lenw v → step s = .next { taken s rest with mlen := v }) ∧
    (n = 6 → Fits s.params.lenw v → step s = .next { taken s rest with blen := v }) ∧
    (n = 7 → (∀ d, s.params.dimw = some d → v < 2 ^ (2 * d + 2)) → step s = .next (taken s rest)) ∧
    (n = 8 → v < 65536 → step s = .next (taken s rest))) ∧
  ∀ s rest, s.host = .regRead 0 :: rest → step s = .next { s with host := rest, reply := some 0 }

/-- Derived from 10_state.md R21, 20_memory.md R50, R58: a host read of any element, whoever wrote it, returns it and changes
nothing; an element the host writes is the one it reads back, and no other element of any space and no register changes. -/
def Obligations.HostMemoryReadsWhatWasWritten : Prop :=
  (∀ s sp a rest, s.host = .memRead sp a :: rest → InInterface s.params (.memRead sp a) →
    step s = .next { s with host := rest, reply := some (elementAt sp a s) }) ∧
  (∀ s a, elementAt .img a s = (imgAt s a).toNat ∧ elementAt .msg a s = (msgAt s a).toNat
    ∧ elementAt .bits a s = (bitsAt s a).toNat) ∧
  ∀ s sp a v rest, s.host = .memWrite sp a v :: .memRead sp a :: rest → InInterface s.params (.memWrite sp a v) →
    ∃ t, step s = .next t
      ∧ t = { s with host := .memRead sp a :: rest, reply := none, img := t.img, msg := t.msg, bits := t.bits }
      ∧ (∀ sp' a', ¬(sp' = sp ∧ a' = a) → elementAt sp' a' t = elementAt sp' a' s)
      ∧ step t = .next { t with host := rest, reply := some v }

/-- Derived from 10_state.md R21 and 93_implementation_defined.md U9, and on the model's choice of log 5 for what lies
outside the interface: a step answers a next state exactly for the transactions of the interface, so no command and no
other transaction of it ever stops. -/
def Obligations.StepAnswersExactlyTheInterface : Prop :=
  ∀ s t rest, s.host = t :: rest → (InInterface s.params t ↔ ∃ s', step s = .next s')

/-- 70_reset_and_hazards.md R210: `Reset` puts every register in its reset value and touches no memory; `SENTINEL` reads
0xFFFE after it; power-up gives the same register values. -/
def Obligations.ResetClearsRegistersKeepsMemories : Prop :=
  (∀ s rest, s.host = .reset :: rest →
    step s = .next
      { taken s rest with
        status := 0x00#8, width := 0, height := 0, chans := 0#3, mlen := 0, blen := 0, capacity := 0 }) ∧
  (∀ s rest, s.host = .reset :: .regRead 8 :: rest →
    ∃ t, step s = .next t ∧ step t = .next { t with host := rest, reply := some 0xFFFE }) ∧
  ∀ s, s.host = [.reset] → ∃ t, step s = .next t ∧
    t = { State.reset with img := s.img, msg := s.msg, bits := s.bits, params := s.params }

/-- Derived from 10_state.md section 7 (R35): the registers' reset values. That the memories list nothing and read as free
values is log 4, that the sizes are unbounded is log 1, that no transaction is pending is log 2, and that no reply
stands is log 3: the model's choices. -/
def Obligations.PowerUpState : Prop :=
  State.reset.status = 0x00#8 ∧ State.reset.width = 0 ∧ State.reset.height = 0 ∧ State.reset.chans = 0#3
    ∧ State.reset.mlen = 0 ∧ State.reset.blen = 0 ∧ State.reset.capacity = 0
    ∧ (∀ a, imgAt State.reset a = Config.powerUpImg a) ∧ (∀ i, msgAt State.reset i = Config.powerUpMsg i)
    ∧ (∀ k, bitsAt State.reset k = Config.powerUpBits k)
    ∧ State.reset.params = Config.Params.unbounded ∧ State.reset.host = [] ∧ State.reset.reply = none

/-- Derived from 10_state.md R23, R27, R29, R33, R35 and 00_scope.md R8: the invariant holds after reset. Four clauses rest
on the model's choices: that the memories have a canonical form and list no element is log 4, that the sizes are unbounded
and so allowed is log 1, what bound `MAXBITS` sets to `LENW` is log 7, that widths are an invariant of natural numbers is
log 8. -/
def Obligations.InvariantAtReset : Prop := State.Inv State.reset

/-- Derived from 10_state.md R23, R27, R29, R33, 20_memory.md R62, 00_scope.md R8: every step keeps every register inside
its width, `STATUS` on its values, the memories in canonical form and inside their depths. The canonical form is the model's
choice (log 4), so are the sizes carried in the state (log 1), the reading of the bound of `LENW` (log 7), and widths as an
invariant of natural numbers (log 8). -/
def Obligations.EveryStepKeepsTheInvariant : Prop := ∀ s t, State.Inv s → step s = .next t → State.Inv t

/-! Faults. -/

/-- 60_exceptions.md R187: the check table. Each command raises `BadConfig` exactly when an operand register it reads is
outside its range, and otherwise completes without a fault; with unbounded sizes the last three rows never fail. -/
def Obligations.BadConfigIsTheCheckTable : Prop :=
  (∀ i s, faulted s = false →
    (OperandsLegal i s → ∃ t, exec i s = .next t ∧ faulted t = false ∧ doneField t.status = true) ∧
    (¬OperandsLegal i s → ∃ t, exec i s = .next t ∧ FaultTaken 2#2 s t)) ∧
  ∀ s, s.params.maxBits = none → ImageInDepth s ∧ MessageInDepth s ∧ BitstreamInDepth s

/-- 60_exceptions.md R188: a step that raises a fault is a write to `CMD`, its cause is 1 or 2, and it changes nothing but
the two fault fields. -/
def Obligations.FaultEntryWritesOnlyTheFaultFields : Prop :=
  ∀ s t, step s = .next t → faulted s = false → faulted t = true →
    ∃ w rest c, s.host = .regWrite 0 w :: rest ∧ (c = 1#2 ∨ c = 2#2) ∧ FaultTaken c (taken s rest) t

/-- 60_exceptions.md R189: while `FAULT` is 1 every write to `CMD` is ignored, `STATUS` changes by `Reset` alone, and the
host's other reads and writes work as they do without the fault. -/
def Obligations.FaultedCoreIgnoresCommands : Prop :=
  ∀ s txn rest, s.host = txn :: rest → faulted s = true →
    (∀ w, txn = .regWrite 0 w → w < 256 → step s = .next (taken s rest)) ∧
    (∀ t, txn ≠ .reset → step s = .next t → t.status = s.status) ∧
    (txn = .reset → ∃ t, step s = .next t ∧ faulted t = false) ∧
    ∀ st : BitVec 8, (∀ w, txn ≠ .regWrite 0 w) → txn ≠ .regRead 1 → txn ≠ .reset →
      (∃ u, step s = .next u ∧ step { s with status := st } = .next { u with status := st }) ∨
      ∀ u, step s ≠ .next u ∧ step { s with status := st } ≠ .next u

/-- Derived from 70_reset_and_hazards.md section 1 (R211): no transaction but `Reset` clears `FAULT`, `FCAUSE` or
`DONE`. -/
def Obligations.OnlyResetClearsFaultAndDone : Prop :=
  ∀ s t, step s = .next t → s.host.head? ≠ some .reset →
    (faulted s = true → faulted t = true ∧ fcauseField t.status = fcauseField s.status) ∧
    (doneField s.status = true → doneField t.status = true)

/-- 60_exceptions.md R190 with the causes of R181, R182, R183: what a write of `w` to `CMD` reports, the first that applies
of ignored, `IllegalCommand`, `BadConfig`, `InvalidCharacter`, `CapacityExceeded`, `SentinelNotFound`, `OK`, and what
each error result leaves. -/
def Obligations.OutcomesInPriorityOrder : Prop :=
  ∀ s w rest, s.host = .regWrite 0 w :: rest → w < 256 →
    ∃ t, step s = .next t ∧
      (faulted s = true → t = taken s rest) ∧
      (faulted s = false → (∀ i, w ≠ (commandWord i).toNat) → FaultTaken 1#2 (taken s rest) t) ∧
      ∀ i, w = (commandWord i).toNat → faulted s = false →
        (¬OperandsLegal i s → FaultTaken 2#2 (taken s rest) t) ∧
        (OperandsLegal i s → BadCharacter i s →
          Ended 2#2 s t ∧ t = { taken s rest with status := t.status }) ∧
        (OperandsLegal i s → ¬BadCharacter i s → TooLong i s →
          Ended 1#2 s t ∧ t.capacity = carriers s ∧ t.img = s.img) ∧
        (OperandsLegal i s → NoSentinel i s →
          Ended 3#2 s t ∧ t.msg = s.msg ∧ t.mlen = s.mlen
            ∧ (i = .decode → t.blen = carriers s ∧ HoldsExtracted s t)) ∧
        (OperandsLegal i s → ¬BadCharacter i s → ¬TooLong i s → ¬NoSentinel i s → Ended 0#2 s t)

/-! The units. -/

/-- 42_insert_encode.md R120: the channel inserter. -/
def Obligations.InserterReplacesBitZero : Prop :=
  (∀ v b, insCh v b = (v &&& 0xFE#8) ||| b.setWidth 8) ∧
  (∀ v b, (insCh v b).extractLsb' 1 7 = v.extractLsb' 1 7 ∧ bitAt (insCh v b) 0 = b) ∧
  (∀ v b, (bitAt v 0 = b → insCh v b = v) ∧ (bitAt v 0 = 0#1 → b = 1#1 → (insCh v b).toNat = v.toNat + 1)
    ∧ (bitAt v 0 = 1#1 → b = 0#1 → (insCh v b).toNat + 1 = v.toNat)) ∧
  insCh 0xFF#8 0#1 = 0xFE#8 ∧ insCh 0xFF#8 1#1 = 0xFF#8 ∧ insCh 0x00#8 1#1 = 0x01#8 ∧ insCh 0x00#8 0#1 = 0x00#8

/-- 43_extract_decode.md R140: the channel extractor, and that it undoes the inserter. -/
def Obligations.ExtractorReadsBitZero : Prop :=
  (∀ v : Byte, extCh v = (v &&& 1#8).setWidth 1 ∧ extCh v = bitAt v 0) ∧
  (∀ v v' : Byte, bitAt v 0 = bitAt v' 0 → extCh v = extCh v') ∧ ∀ v b, extCh (insCh v b) = b

/-- 00_scope.md R12: `bits8` and `byte8`, and that each undoes the other. -/
def Obligations.ByteAndBitConversion : Prop :=
  (∀ b, bits8 b = [bitAt b 7, bitAt b 6, bitAt b 5, bitAt b 4, bitAt b 3, bitAt b 2, bitAt b 1, bitAt b 0]) ∧
  (∀ t0 t1 t2 t3 t4 t5 t6 t7 : Bit, (byte8 [t0, t1, t2, t3, t4, t5, t6, t7]).toNat
    = t0.toNat * 128 + t1.toNat * 64 + t2.toNat * 32 + t3.toNat * 16 + t4.toNat * 8 + t5.toNat * 4 + t6.toNat * 2
      + t7.toNat) ∧
  (∀ b, byte8 (bits8 b) = b) ∧ ∀ t : List Bit, t.length = 8 → bits8 (byte8 t) = t

/-- Derived from 30_encoding.md part 1 (R73): the sentinel in stream order, as the constant register, and as two
characters. -/
def Obligations.SentinelInStreamOrder : Prop :=
  sentinelBits = [1#1, 1#1, 1#1, 1#1, 1#1, 1#1, 1#1, 1#1, 1#1, 1#1, 1#1, 1#1, 1#1, 1#1, 1#1, 0#1] ∧
  sentinelBits = bits8 0xFF#8 ++ bits8 0xFE#8 ∧ sentinel = 0xFFFE#16 ∧
  ∀ t, t < 16 → sentinelBits[t]? = some (bitAt sentinel (15 - t))

/-- 30_encoding.md R70, R72, 41_pack_unpack.md R100: the packer's stream, bit by bit, its length, and its one error. -/
def Obligations.PackedStreamFormat : Prop :=
  ∀ M : List Char32,
    ((∃ c ∈ M, 255 < c.toNat) → pack M = .error .invalidCharacter) ∧
    ((∀ c ∈ M, c.toNat ≤ 255) → ∃ B, pack M = .ok B ∧ B.length = 8 * M.length + 16
      ∧ (∀ i c, M[i]? = some c → ∀ t, t < 8 → B[8 * i + t]? = some (bitAt c (7 - t)))
      ∧ (∀ t, t < 15 → B[8 * M.length + t]? = some 1#1) ∧ B[8 * M.length + 15]? = some 0#1)

/-- 41_pack_unpack.md R104: the search gives the smallest index at which fifteen 1s and a 0 stand, at any bit offset, and
none exactly when there is no such index. -/
def Obligations.SearchFindsTheFirstSentinel : Prop :=
  ∀ B : List Bit,
    (∀ j, findSentinel B = some j ↔ PatternAt B j ∧ ∀ i, i < j → ¬PatternAt B i) ∧
    (findSentinel B = none ↔ ∀ j, ¬PatternAt B j) ∧ (B.length < 16 → findSentinel B = none)

/-- 41_pack_unpack.md R105: the unpacker groups the bits before the first sentinel in runs of eight counted from bit 0,
most significant first, drops a shorter rest, and looks at nothing from the sentinel on. -/
def Obligations.UnpackerGroupsWholeCharacters : Prop :=
  ∀ B : List Bit,
    (findSentinel B = none → unpack B = .error .sentinelNotFound) ∧
    ∀ j, findSentinel B = some j → ∃ M, unpack B = .ok M ∧ M.length = j / 8
      ∧ ∀ i b, M[i]? = some b → ∀ t, t < 8 → B[8 * i + t]? = some (bitAt b (7 - t))

/-- 41_pack_unpack.md R111: exactly which messages survive packing and unpacking, whatever bits
follow, and what comes back of the others. -/
def Obligations.ExactlyWhichMessagesSurvive : Prop :=
  (∀ (M : List Char32) (T : List Bit), (∀ c ∈ M, c.toNat ≤ 255) →
    ∃ B, pack M = .ok B ∧
      ((∀ j, ¬PatternAt (dataBits M) j) ↔ findSentinel (B ++ T) = some (8 * M.length)) ∧
      ((∀ j, ¬PatternAt (dataBits M) j) ↔ unpack (B ++ T) = .ok (M.map fun c => c.setWidth 8)) ∧
      ∀ j, PatternAt (dataBits M) j → (∀ i, i < j → ¬PatternAt (dataBits M) i) →
        j + 16 ≤ 8 * M.length ∧ j / 8 < M.length
          ∧ unpack (B ++ T) = .ok ((M.map fun c => c.setWidth 8).take (j / 8))) ∧
  findSentinel (bits8 0xFF#8 ++ sentinelBits) = some 8

/-- 44_properties.md R169: unpacking undoes packing, whatever bits follow, and UNPACK gives the message back on any core that
holds the bitstream PACK wrote, whatever its own message. The command's half is on every choice of the sizes that 00_scope.md R8 allows. -/
def Obligations.UnpackUndoesPack : Prop :=
  (∀ (M : List Char32) (T : List Bit), (∀ c ∈ M, c.toNat ≤ 255) → (∀ j, ¬PatternAt (dataBits M) j) →
    ∃ B, pack M = .ok B ∧ unpack (B ++ T) = .ok (M.map fun c => c.setWidth 8)
      ∧ (M.map fun c => c.setWidth 8).map (fun b : Byte => b.setWidth 32) = M) ∧
  ∀ s, s.params.wf = true → faulted s = false → OperandsLegal .pack s → LegalMessage s → (∀ j, ¬CollisionAt s j) →
    ∃ t, exec .pack s = .next t ∧ Ended 0#2 s t ∧
      ∀ u, SameBitstream t u →
        ∃ v, exec .unpack u = .next v ∧ Ended 0#2 u v ∧ v.mlen = s.mlen ∧ ∀ i, i < s.mlen → msgAt v i = msgAt s i

/-- Derived from 70_reset_and_hazards.md section 3 (R218): a message of 7-bit characters always survives. -/
def Obligations.SevenBitMessagesSurvive : Prop :=
  ∀ (M : List Char32) (T : List Bit), (∀ c ∈ M, c.toNat < 0x80) →
    ∃ B, pack M = .ok B ∧ unpack (B ++ T) = .ok (M.map fun c => c.setWidth 8)

/-! The commands: operands, result, every register and memory element. -/

/-- 40_capacity.md R92. -/
def Obligations.ChkcapComputesTheCapacity : Prop :=
  ∀ s, StartsGuarded .chkcap s ∧
    (faulted s = false → OperandsLegal .chkcap s →
      ∃ t, exec .chkcap s = .next t ∧ t = { s with capacity := s.width * s.height * 3, status := t.status }
        ∧ (s.width * s.height * 3 < s.blen → Ended 1#2 s t) ∧ (s.blen ≤ s.width * s.height * 3 → Ended 0#2 s t))

/-- 41_pack_unpack.md R102, R101. -/
def Obligations.PackWritesTheBitstream : Prop :=
  ∀ s, StartsGuarded .pack s ∧
    (faulted s = false → OperandsLegal .pack s →
      ∃ t, exec .pack s = .next t
        ∧ (¬LegalMessage s → t = { s with status := t.status } ∧ Ended 2#2 s t)
        ∧ (LegalMessage s → t = { s with bits := t.bits, blen := 8 * s.mlen + 16, status := t.status }
            ∧ HoldsPacked s t ∧ Ended 0#2 s t))

/-- 41_pack_unpack.md R108. -/
def Obligations.UnpackRecoversTheMessage : Prop :=
  ∀ s, StartsGuarded .unpack s ∧
    (faulted s = false → OperandsLegal .unpack s →
      ∃ t, exec .unpack s = .next t
        ∧ ((∀ j, ¬SentinelAt s j) → t = { s with status := t.status } ∧ Ended 3#2 s t)
        ∧ ∀ j, FirstSentinelAt s j → t = { s with msg := t.msg, mlen := t.mlen, status := t.status }
            ∧ HoldsRecovered s s t j ∧ Ended 0#2 s t)

/-- 42_insert_encode.md R126. -/
def Obligations.EmbedPlacesTheBitstream : Prop :=
  ∀ s, StartsGuarded .embed s ∧
    (faulted s = false → OperandsLegal .embed s →
      ∃ t, exec .embed s = .next t
        ∧ (carriers s < s.blen → t = { s with capacity := carriers s, status := t.status } ∧ Ended 1#2 s t)
        ∧ (s.blen ≤ carriers s → t = { s with img := t.img, capacity := carriers s, status := t.status }
            ∧ HoldsEmbedded s t ∧ Ended 0#2 s t))

/-- 43_extract_decode.md R144, R143. -/
def Obligations.ExtractReadsTheImage : Prop :=
  ∀ s, StartsGuarded .extract s ∧
    (faulted s = false → OperandsLegal .extract s →
      ∃ t, exec .extract s = .next t ∧ t = { s with bits := t.bits, blen := carriers s, status := t.status }
        ∧ HoldsExtracted s t ∧ Ended 0#2 s t)

/-- 42_insert_encode.md R131, R128, R129. -/
def Obligations.EncodeHidesTheMessage : Prop :=
  ∀ s, StartsGuarded .encode s ∧
    (faulted s = false → OperandsLegal .encode s →
      ∃ t, exec .encode s = .next t
        ∧ (¬LegalMessage s → t = { s with status := t.status } ∧ Ended 2#2 s t)
        ∧ (LegalMessage s → carriers s < 8 * s.mlen + 16 →
            t = { s with bits := t.bits, blen := 8 * s.mlen + 16, capacity := carriers s, status := t.status }
              ∧ HoldsPacked s t ∧ Ended 1#2 s t)
        ∧ (LegalMessage s → 8 * s.mlen + 16 ≤ carriers s →
            t = { s with bits := t.bits, blen := 8 * s.mlen + 16, capacity := carriers s, img := t.img,
                         status := t.status }
              ∧ HoldsPacked s t ∧ HoldsEmbedded s t ∧ Ended 0#2 s t))

/-- 43_extract_decode.md R148, R146. -/
def Obligations.DecodeRecoversTheMessage : Prop :=
  ∀ s, StartsGuarded .decode s ∧
    (faulted s = false → OperandsLegal .decode s →
      ∃ t, exec .decode s = .next t ∧ HoldsExtracted s t ∧ t.blen = carriers s
        ∧ ((∀ j, ¬SentinelAt t j) →
            t = { s with bits := t.bits, blen := carriers s, status := t.status } ∧ Ended 3#2 s t)
        ∧ ∀ j, FirstSentinelAt t j →
            t = { s with bits := t.bits, blen := carriers s, msg := t.msg, mlen := t.mlen, status := t.status }
              ∧ HoldsRecovered t s t j ∧ Ended 0#2 s t)

/-! The units' contracts on a whole pixel. -/

/-- 42_insert_encode.md R121: the inserter on a pixel, and that EMBED does to each pixel what it says. -/
def Obligations.EmbedInsertsPixelByPixel : Prop :=
  (∀ (px : List Byte) (b : List Bit) (nv : Nat), nv ≤ b.length →
    (insPixel px b nv).length = px.length ∧
    ∀ c v, px[c]? = some v →
      (∀ x, c < 3 → c < nv → b[c]? = some x → (insPixel px b nv)[c]? = some (insCh v x)) ∧
      (3 ≤ c ∨ nv ≤ c → (insPixel px b nv)[c]? = some v)) ∧
  ∀ s, faulted s = false → OperandsLegal .embed s → s.blen ≤ carriers s →
    ∃ t, exec .embed s = .next t ∧
      ∀ p, p < s.width * s.height →
        pixel t p = insPixel (pixel s p) ((List.range 3).map fun c => bitsAt s (3 * p + c)) (min 3 (s.blen - 3 * p))

/-- 43_extract_decode.md R141: the extractor on a pixel, and that EXTRACT writes its three bits for each pixel. -/
def Obligations.ExtractReadsPixelByPixel : Prop :=
  (∀ r g b : Byte, extPixel [r, g, b] = [bitAt r 0, bitAt g 0, bitAt b 0]
    ∧ ∀ a : Byte, extPixel [r, g, b, a] = [bitAt r 0, bitAt g 0, bitAt b 0]) ∧
  ∀ s, faulted s = false → OperandsLegal .extract s →
    ∃ t, exec .extract s = .next t ∧
      ∀ p, p < s.width * s.height →
        [bitsAt t (3 * p), bitsAt t (3 * p + 1), bitsAt t (3 * p + 2)] = extPixel (pixel s p)

/-! Laws over several commands. -/

/-- 42_insert_encode.md R132: ENCODE equals PACK, then EMBED if PACK's result is `OK`, on every choice of the sizes that
00_scope.md R8 allows. -/
def Obligations.EncodeEqualsPackThenEmbed : Prop :=
  ∀ s, s.params.wf = true → faulted s = false → OperandsLegal .encode s →
    ∃ t, exec .pack s = .next t ∧
      (resultField t.status = 0#2 → ∃ u, exec .embed t = .next u ∧ exec .encode s = .next u) ∧
      (resultField t.status ≠ 0#2 → exec .encode s = .next t)

/-- 43_extract_decode.md R149: DECODE equals EXTRACT, then UNPACK. -/
def Obligations.DecodeEqualsExtractThenUnpack : Prop :=
  ∀ s, faulted s = false → OperandsLegal .decode s →
    ∃ t u, exec .extract s = .next t ∧ exec .unpack t = .next u ∧ exec .decode s = .next u

/-- 43_extract_decode.md R145: EXTRACT after a successful EMBED or ENCODE returns the bitstream, and behind it the original
least significant bits. -/
def Obligations.ExtractReturnsWhatWasEmbedded : Prop :=
  ∀ i s t, (i = .embed ∨ i = .encode) → faulted s = false → exec i s = .next t → faulted t = false →
    resultField t.status = 0#2 → ∀ u, SameImage t u →
      ∃ v, exec .extract u = .next v ∧ (∀ k, k < t.blen → bitsAt v k = bitsAt t k)
        ∧ ∀ k, t.blen ≤ k → k < carriers s → bitsAt v k = lsb s k

/-- 44_properties.md R161: the round trip. -/
def Obligations.DecodeRecoversWhatEncodeHid : Prop :=
  ∀ s, faulted s = false → OperandsLegal .encode s → LegalMessage s → (∀ j, ¬CollisionAt s j) →
    8 * s.mlen + 16 ≤ carriers s →
    ∃ t, exec .encode s = .next t ∧ Ended 0#2 s t ∧
      ∀ u, SameImage t u →
        ∃ v, exec .decode u = .next v ∧ Ended 0#2 u v ∧ v.mlen = s.mlen ∧ ∀ i, i < s.mlen → msgAt v i = msgAt s i

/-- 44_properties.md R162: the round trip of a message whose data bits hold the sentinel's pattern, first at `j`, gives a
proper prefix and no error. -/
def Obligations.CollidingMessageComesBackTruncated : Prop :=
  ∀ s j, faulted s = false → OperandsLegal .encode s → LegalMessage s → CollisionAt s j →
    (∀ i, i < j → ¬CollisionAt s i) → 8 * s.mlen + 16 ≤ carriers s →
    ∃ t, exec .encode s = .next t ∧ Ended 0#2 s t ∧
      ∀ u, SameImage t u →
        ∃ v, exec .decode u = .next v ∧ Ended 0#2 u v ∧ v.mlen = j / 8 ∧ v.mlen < s.mlen
          ∧ ∀ i, i < v.mlen → msgAt v i = msgAt s i

/-- 44_properties.md R163: the capacity boundary. -/
def Obligations.CapacityBoundaryIsExact : Prop :=
  ∀ s, faulted s = false → OperandsLegal .encode s → LegalMessage s →
    ∃ t, exec .encode s = .next t
      ∧ (Ended 0#2 s t ↔ 8 * s.mlen + 16 ≤ carriers s)
      ∧ (Ended 1#2 s t ↔ carriers s < 8 * s.mlen + 16)

/-- 44_properties.md R164: alpha is never changed, whatever the result. -/
def Obligations.AlphaIsPreserved : Prop :=
  ∀ i s, (i = .embed ∨ i = .encode) → s.chans = 4#3 →
    ∃ t, exec i s = .next t ∧ ∀ p, p < s.width * s.height → imgAt t (4 * p + 3) = imgAt s (4 * p + 3)

/-- 44_properties.md R165: pixels and channels the bitstream does not reach are unchanged. -/
def Obligations.UnreachedPixelsAreIdentical : Prop :=
  ∀ i s, (i = .embed ∨ i = .encode) →
    ∃ t, exec i s = .next t ∧
      (∀ p c, p < s.width * s.height → c < s.chans.toNat → t.blen = 0 ∨ (t.blen - 1) / 3 < p →
        imgAt t (p * s.chans.toNat + c) = imgAt s (p * s.chans.toNat + c)) ∧
      ∀ p c, p = (t.blen - 1) / 3 → c < 3 → t.blen ≤ 3 * p + c →
        imgAt t (p * s.chans.toNat + c) = imgAt s (p * s.chans.toNat + c)

/-- 44_properties.md R166: bits 7 to 1 of every image element are kept, and its value moves by at most 1. -/
def Obligations.ImageChangesByAtMostOne : Prop :=
  ∀ i s, (i = .embed ∨ i = .encode) →
    ∃ t, exec i s = .next t ∧
      ∀ a, (imgAt t a).extractLsb' 1 7 = (imgAt s a).extractLsb' 1 7
        ∧ (imgAt t a).toNat ≤ (imgAt s a).toNat + 1 ∧ (imgAt s a).toNat ≤ (imgAt t a).toNat + 1

/-- 44_properties.md R167, with the write sets of 10_state.md R36: no command changes `WIDTH`, `HEIGHT` or `CHANS`, and each
writes only what its row names. -/
def Obligations.CommandsWriteOnlyTheirOutputs : Prop :=
  ∀ i s, ∃ t, exec i s = .next t
    ∧ t.width = s.width ∧ t.height = s.height ∧ t.chans = s.chans
    ∧ t.params = s.params ∧ t.host = s.host ∧ t.reply = s.reply
    ∧ (i ≠ .unpack → i ≠ .decode → t.mlen = s.mlen ∧ t.msg = s.msg)
    ∧ (i = .chkcap ∨ i = .unpack ∨ i = .embed → t.blen = s.blen ∧ t.bits = s.bits)
    ∧ (i ≠ .chkcap → i ≠ .embed → i ≠ .encode → t.capacity = s.capacity)
    ∧ (i ≠ .embed → i ≠ .encode → t.img = s.img)

/-- 44_properties.md R168: after an error result or a fault of ENCODE or EMBED the image is the one before, and the other
commands never write it. -/
def Obligations.ErrorsChangeNoImage : Prop :=
  ∀ i s, ∃ t, exec i s = .next t
    ∧ (i = .embed ∨ i = .encode →
        resultField t.status = 1#2 ∨ resultField t.status = 2#2 ∨ faulted t = true → t.img = s.img)
    ∧ (i ≠ .embed → i ≠ .encode → t.img = s.img)

/-- 44_properties.md R170: DECODE on any image with legal operands never faults, and reports `SentinelNotFound` exactly
when no run of fifteen 1s followed by a 0 stands in the least significant bits; the rule's six-pixel example. -/
def Obligations.DecodeOfAnyImageNeverFaults : Prop :=
  ∀ s, faulted s = false → OperandsLegal .decode s →
    ∃ t, exec .decode s = .next t ∧ faulted t = false
      ∧ (Ended 0#2 s t ∨ Ended 3#2 s t)
      ∧ (Ended 3#2 s t ↔ ∀ j, ¬ImageSentinelAt s j)
      ∧ (s.width * s.height = 6 → (∀ k, k < 15 → lsb s k = 1#1) → lsb s 15 = 0#1 →
          Ended 0#2 s t ∧ t.mlen = 0)

/-- 44_properties.md R171: "Hi" in a 10 by 10 RGB image and back, for every image. -/
def Obligations.HiScenario : Prop :=
  ∀ s, faulted s = false → s.width = 10 → s.height = 10 → s.chans = 3#3 → s.mlen = 2 → msgAt s 0 = 0x48#32 →
    msgAt s 1 = 0x69#32 → ImageInDepth s → MessageInDepth s →
    ∃ t, exec .encode s = .next t ∧ Ended 0#2 s t ∧ t.blen = 32 ∧ t.capacity = 300
      ∧ (∀ a, a < 32 → imgAt t a = insCh (imgAt s a) (bitsAt t a)) ∧ (∀ a, 32 ≤ a → imgAt t a = imgAt s a)
      ∧ ∀ u, SameImage t u →
          ∃ v, exec .decode u = .next v ∧ Ended 0#2 u v ∧ v.blen = 300 ∧ FirstSentinelAt v 16 ∧ v.mlen = 2
            ∧ msgAt v 0 = 0x48#32 ∧ msgAt v 1 = 0x69#32

/-- 44_properties.md R172: a message of 95 legal characters into a 10 by 10 image fails and leaves the image. -/
def Obligations.NinetyFiveCharactersDoNotFit : Prop :=
  ∀ s, faulted s = false → s.width = 10 → s.height = 10 → Channels s → s.mlen = 95 → LegalMessage s →
    ImageInDepth s → MessageInDepth s →
    ∃ t, exec .encode s = .next t ∧ Ended 1#2 s t ∧ t.blen = 776 ∧ t.capacity = 300 ∧ HoldsPacked s t ∧ t.img = s.img

/-- 44_properties.md R173: two images of one shape that agree in bit 0 of every carrying channel decode alike, and a change
of one such bit changes the extracted stream. -/
def Obligations.OnlyCarryingBitsReachTheDecoder : Prop :=
  ∀ s s', faulted s = false → faulted s' = false → OperandsLegal .decode s → s'.width = s.width →
    s'.height = s.height → s'.chans = s.chans → s'.params = s.params →
    ∃ t t', exec .decode s = .next t ∧ exec .decode s' = .next t' ∧
      ((∀ k, k < carriers s → lsb s' k = lsb s k) →
        resultField t'.status = resultField t.status ∧ (∀ k, k < carriers s → bitsAt t' k = bitsAt t k)
          ∧ (resultField t.status = 0#2 → t'.mlen = t.mlen ∧ ∀ i, i < t.mlen → msgAt t' i = msgAt t i)) ∧
      ∀ k, k < carriers s → lsb s' k ≠ lsb s k → bitsAt t' k ≠ bitsAt t k

/-- Derived from 42_insert_encode.md section 1 (R124, idempotence): a successful EMBED, run again, completes and leaves every
image element as it is. -/
def Obligations.EmbeddingTwiceIsEmbeddingOnce : Prop :=
  ∀ s t, faulted s = false → exec .embed s = .next t → faulted t = false → resultField t.status = 0#2 →
    ∃ u, exec .embed t = .next u ∧ Ended 0#2 t u ∧ ∀ a, imgAt u a = imgAt t a

/-- 44_properties.md R174: ENCODE with the same message again changes no image element; ENCODE of a new message over an image
that carries another gives an image that decodes to the new one, its sentinel being the first. -/
def Obligations.ReEncodingKeepsOrReplaces : Prop :=
  (∀ s t, faulted s = false → exec .encode s = .next t → faulted t = false → resultField t.status = 0#2 →
    ∃ u, exec .encode t = .next u ∧ Ended 0#2 t u ∧ ∀ a, imgAt u a = imgAt t a) ∧
  ∀ s t s', faulted s = false → exec .encode s = .next t → faulted t = false → resultField t.status = 0#2 →
    SameImage t s' → MessageInDepth s' → LegalMessage s' → (∀ j, ¬CollisionAt s' j) → 8 * s'.mlen + 16 ≤ carriers s' →
    ∃ t', exec .encode s' = .next t' ∧ Ended 0#2 s' t' ∧
      ∀ u, SameImage t' u →
        ∃ v, exec .decode u = .next v ∧ Ended 0#2 u v ∧ FirstSentinelAt v (8 * s'.mlen) ∧ v.mlen = s'.mlen
          ∧ ∀ i, i < s'.mlen → msgAt v i = msgAt s' i

/-- Derived from 41_pack_unpack.md section 3 (R107) and 92_eei_decisions.md D31: a message UNPACK or DECODE recovered is
always packed without an error. -/
def Obligations.RecoveredMessagesPack : Prop :=
  ∀ i s t, (i = .unpack ∨ i = .decode) → faulted s = false → exec i s = .next t → faulted t = false →
    resultField t.status = 0#2 →
    ∃ u, exec .pack t = .next u ∧ Ended 0#2 t u ∧ u.blen = 8 * t.mlen + 16
end

