-- ==== Sys2Proof/Laws/State.lean ====
section
/-! SUPPORT. Projections of the named updates of `State`: what each leaves in each field, true by `rfl`. The image after
`embedWalk` and the bitstream after `extractWalk` are in Sys2Proof/Laws/Walk.lean. -/

namespace Sys2Proof.Machine

/-! `storeBitstream` -/

@[simp] theorem storeBitstream_width (r : List Bit) (s : State) : (storeBitstream r s).width = s.width := rfl
@[simp] theorem storeBitstream_height (r : List Bit) (s : State) : (storeBitstream r s).height = s.height := rfl
@[simp] theorem storeBitstream_chans (r : List Bit) (s : State) : (storeBitstream r s).chans = s.chans := rfl
@[simp] theorem storeBitstream_mlen (r : List Bit) (s : State) : (storeBitstream r s).mlen = s.mlen := rfl
@[simp] theorem storeBitstream_blen (r : List Bit) (s : State) : (storeBitstream r s).blen = r.length := rfl
@[simp] theorem storeBitstream_capacity (r : List Bit) (s : State) : (storeBitstream r s).capacity = s.capacity := rfl
@[simp] theorem storeBitstream_status (r : List Bit) (s : State) : (storeBitstream r s).status = s.status := rfl
@[simp] theorem storeBitstream_img (r : List Bit) (s : State) : (storeBitstream r s).img = s.img := rfl
@[simp] theorem storeBitstream_msg (r : List Bit) (s : State) : (storeBitstream r s).msg = s.msg := rfl
@[simp] theorem storeBitstream_bits (r : List Bit) (s : State) : (storeBitstream r s).bits = Memory.writeAll s.bits 0 r := rfl
@[simp] theorem storeBitstream_params (r : List Bit) (s : State) : (storeBitstream r s).params = s.params := rfl
@[simp] theorem storeBitstream_host (r : List Bit) (s : State) : (storeBitstream r s).host = s.host := rfl
@[simp] theorem storeBitstream_reply (r : List Bit) (s : State) : (storeBitstream r s).reply = s.reply := rfl
@[simp] theorem imgAt_storeBitstream (r : List Bit) (s : State) (a : Nat) : imgAt (storeBitstream r s) a = imgAt s a := rfl
@[simp] theorem msgAt_storeBitstream (r : List Bit) (s : State) (i : Nat) : msgAt (storeBitstream r s) i = msgAt s i := rfl
@[simp] theorem pixelCount_storeBitstream (r : List Bit) (s : State) : pixelCount (storeBitstream r s) = pixelCount s := rfl
@[simp] theorem channelAddr_storeBitstream (r : List Bit) (s : State) (p ch : Nat) : channelAddr (storeBitstream r s) p ch = channelAddr s p ch := rfl
@[simp] theorem message_storeBitstream (r : List Bit) (s : State) : message (storeBitstream r s) = message s := rfl
@[simp] theorem faulted_storeBitstream (r : List Bit) (s : State) : faulted (storeBitstream r s) = faulted s := rfl

/-! `storeMessage` -/

@[simp] theorem storeMessage_width (r : List Byte) (s : State) : (storeMessage r s).width = s.width := rfl
@[simp] theorem storeMessage_height (r : List Byte) (s : State) : (storeMessage r s).height = s.height := rfl
@[simp] theorem storeMessage_chans (r : List Byte) (s : State) : (storeMessage r s).chans = s.chans := rfl
@[simp] theorem storeMessage_mlen (r : List Byte) (s : State) : (storeMessage r s).mlen = r.length := rfl
@[simp] theorem storeMessage_blen (r : List Byte) (s : State) : (storeMessage r s).blen = s.blen := rfl
@[simp] theorem storeMessage_capacity (r : List Byte) (s : State) : (storeMessage r s).capacity = s.capacity := rfl
@[simp] theorem storeMessage_status (r : List Byte) (s : State) : (storeMessage r s).status = s.status := rfl
@[simp] theorem storeMessage_img (r : List Byte) (s : State) : (storeMessage r s).img = s.img := rfl
@[simp] theorem storeMessage_msg (r : List Byte) (s : State) : (storeMessage r s).msg = Memory.writeAll s.msg 0 (r.map fun b => b.setWidth 32) := rfl
@[simp] theorem storeMessage_bits (r : List Byte) (s : State) : (storeMessage r s).bits = s.bits := rfl
@[simp] theorem storeMessage_params (r : List Byte) (s : State) : (storeMessage r s).params = s.params := rfl
@[simp] theorem storeMessage_host (r : List Byte) (s : State) : (storeMessage r s).host = s.host := rfl
@[simp] theorem storeMessage_reply (r : List Byte) (s : State) : (storeMessage r s).reply = s.reply := rfl
@[simp] theorem imgAt_storeMessage (r : List Byte) (s : State) (a : Nat) : imgAt (storeMessage r s) a = imgAt s a := rfl
@[simp] theorem bitsAt_storeMessage (r : List Byte) (s : State) (k : Nat) : bitsAt (storeMessage r s) k = bitsAt s k := rfl
@[simp] theorem pixelCount_storeMessage (r : List Byte) (s : State) : pixelCount (storeMessage r s) = pixelCount s := rfl
@[simp] theorem channelAddr_storeMessage (r : List Byte) (s : State) (p ch : Nat) : channelAddr (storeMessage r s) p ch = channelAddr s p ch := rfl
@[simp] theorem bitstream_storeMessage (r : List Byte) (s : State) : bitstream (storeMessage r s) = bitstream s := rfl
@[simp] theorem faulted_storeMessage (r : List Byte) (s : State) : faulted (storeMessage r s) = faulted s := rfl

/-! `finish` -/

@[simp] theorem finish_width (r : Result) (s : State) : (finish r s).width = s.width := rfl
@[simp] theorem finish_height (r : Result) (s : State) : (finish r s).height = s.height := rfl
@[simp] theorem finish_chans (r : Result) (s : State) : (finish r s).chans = s.chans := rfl
@[simp] theorem finish_mlen (r : Result) (s : State) : (finish r s).mlen = s.mlen := rfl
@[simp] theorem finish_blen (r : Result) (s : State) : (finish r s).blen = s.blen := rfl
@[simp] theorem finish_capacity (r : Result) (s : State) : (finish r s).capacity = s.capacity := rfl
@[simp] theorem finish_status (r : Result) (s : State) : (finish r s).status = statusOfResult r s.status := rfl
@[simp] theorem finish_img (r : Result) (s : State) : (finish r s).img = s.img := rfl
@[simp] theorem finish_msg (r : Result) (s : State) : (finish r s).msg = s.msg := rfl
@[simp] theorem finish_bits (r : Result) (s : State) : (finish r s).bits = s.bits := rfl
@[simp] theorem finish_params (r : Result) (s : State) : (finish r s).params = s.params := rfl
@[simp] theorem finish_host (r : Result) (s : State) : (finish r s).host = s.host := rfl
@[simp] theorem finish_reply (r : Result) (s : State) : (finish r s).reply = s.reply := rfl
@[simp] theorem imgAt_finish (r : Result) (s : State) (a : Nat) : imgAt (finish r s) a = imgAt s a := rfl
@[simp] theorem msgAt_finish (r : Result) (s : State) (i : Nat) : msgAt (finish r s) i = msgAt s i := rfl
@[simp] theorem bitsAt_finish (r : Result) (s : State) (k : Nat) : bitsAt (finish r s) k = bitsAt s k := rfl
@[simp] theorem pixelCount_finish (r : Result) (s : State) : pixelCount (finish r s) = pixelCount s := rfl
@[simp] theorem channelAddr_finish (r : Result) (s : State) (p ch : Nat) : channelAddr (finish r s) p ch = channelAddr s p ch := rfl
@[simp] theorem message_finish (r : Result) (s : State) : message (finish r s) = message s := rfl
@[simp] theorem bitstream_finish (r : Result) (s : State) : bitstream (finish r s) = bitstream s := rfl

/-! `raiseFault` -/

@[simp] theorem raiseFault_width (c : FaultCause) (s : State) : (raiseFault c s).width = s.width := rfl
@[simp] theorem raiseFault_height (c : FaultCause) (s : State) : (raiseFault c s).height = s.height := rfl
@[simp] theorem raiseFault_chans (c : FaultCause) (s : State) : (raiseFault c s).chans = s.chans := rfl
@[simp] theorem raiseFault_mlen (c : FaultCause) (s : State) : (raiseFault c s).mlen = s.mlen := rfl
@[simp] theorem raiseFault_blen (c : FaultCause) (s : State) : (raiseFault c s).blen = s.blen := rfl
@[simp] theorem raiseFault_capacity (c : FaultCause) (s : State) : (raiseFault c s).capacity = s.capacity := rfl
@[simp] theorem raiseFault_status (c : FaultCause) (s : State) : (raiseFault c s).status = statusOfFault c s.status := rfl
@[simp] theorem raiseFault_img (c : FaultCause) (s : State) : (raiseFault c s).img = s.img := rfl
@[simp] theorem raiseFault_msg (c : FaultCause) (s : State) : (raiseFault c s).msg = s.msg := rfl
@[simp] theorem raiseFault_bits (c : FaultCause) (s : State) : (raiseFault c s).bits = s.bits := rfl
@[simp] theorem raiseFault_params (c : FaultCause) (s : State) : (raiseFault c s).params = s.params := rfl
@[simp] theorem raiseFault_host (c : FaultCause) (s : State) : (raiseFault c s).host = s.host := rfl
@[simp] theorem raiseFault_reply (c : FaultCause) (s : State) : (raiseFault c s).reply = s.reply := rfl
@[simp] theorem imgAt_raiseFault (c : FaultCause) (s : State) (a : Nat) : imgAt (raiseFault c s) a = imgAt s a := rfl
@[simp] theorem msgAt_raiseFault (c : FaultCause) (s : State) (i : Nat) : msgAt (raiseFault c s) i = msgAt s i := rfl
@[simp] theorem bitsAt_raiseFault (c : FaultCause) (s : State) (k : Nat) : bitsAt (raiseFault c s) k = bitsAt s k := rfl
@[simp] theorem pixelCount_raiseFault (c : FaultCause) (s : State) : pixelCount (raiseFault c s) = pixelCount s := rfl
@[simp] theorem channelAddr_raiseFault (c : FaultCause) (s : State) (p ch : Nat) : channelAddr (raiseFault c s) p ch = channelAddr s p ch := rfl
@[simp] theorem message_raiseFault (c : FaultCause) (s : State) : message (raiseFault c s) = message s := rfl
@[simp] theorem bitstream_raiseFault (c : FaultCause) (s : State) : bitstream (raiseFault c s) = bitstream s := rfl

/-! `resetRegisters` -/

@[simp] theorem resetRegisters_width (s : State) : (resetRegisters s).width = 0 := rfl
@[simp] theorem resetRegisters_height (s : State) : (resetRegisters s).height = 0 := rfl
@[simp] theorem resetRegisters_chans (s : State) : (resetRegisters s).chans = 0#3 := rfl
@[simp] theorem resetRegisters_mlen (s : State) : (resetRegisters s).mlen = 0 := rfl
@[simp] theorem resetRegisters_blen (s : State) : (resetRegisters s).blen = 0 := rfl
@[simp] theorem resetRegisters_capacity (s : State) : (resetRegisters s).capacity = 0 := rfl
@[simp] theorem resetRegisters_status (s : State) : (resetRegisters s).status = 0x00#8 := rfl
@[simp] theorem resetRegisters_img (s : State) : (resetRegisters s).img = s.img := rfl
@[simp] theorem resetRegisters_msg (s : State) : (resetRegisters s).msg = s.msg := rfl
@[simp] theorem resetRegisters_bits (s : State) : (resetRegisters s).bits = s.bits := rfl
@[simp] theorem resetRegisters_params (s : State) : (resetRegisters s).params = s.params := rfl
@[simp] theorem resetRegisters_host (s : State) : (resetRegisters s).host = s.host := rfl
@[simp] theorem resetRegisters_reply (s : State) : (resetRegisters s).reply = s.reply := rfl
@[simp] theorem imgAt_resetRegisters (s : State) (a : Nat) : imgAt (resetRegisters s) a = imgAt s a := rfl
@[simp] theorem msgAt_resetRegisters (s : State) (i : Nat) : msgAt (resetRegisters s) i = msgAt s i := rfl
@[simp] theorem bitsAt_resetRegisters (s : State) (k : Nat) : bitsAt (resetRegisters s) k = bitsAt s k := rfl

/-! `writeCapacity` -/

@[simp] theorem writeCapacity_width (s : State) : (writeCapacity s).width = s.width := rfl
@[simp] theorem writeCapacity_height (s : State) : (writeCapacity s).height = s.height := rfl
@[simp] theorem writeCapacity_chans (s : State) : (writeCapacity s).chans = s.chans := rfl
@[simp] theorem writeCapacity_mlen (s : State) : (writeCapacity s).mlen = s.mlen := rfl
@[simp] theorem writeCapacity_blen (s : State) : (writeCapacity s).blen = s.blen := rfl
@[simp] theorem writeCapacity_capacity (s : State) : (writeCapacity s).capacity = s.width * s.height * 3 := rfl
@[simp] theorem writeCapacity_status (s : State) : (writeCapacity s).status = s.status := rfl
@[simp] theorem writeCapacity_img (s : State) : (writeCapacity s).img = s.img := rfl
@[simp] theorem writeCapacity_msg (s : State) : (writeCapacity s).msg = s.msg := rfl
@[simp] theorem writeCapacity_bits (s : State) : (writeCapacity s).bits = s.bits := rfl
@[simp] theorem writeCapacity_params (s : State) : (writeCapacity s).params = s.params := rfl
@[simp] theorem writeCapacity_host (s : State) : (writeCapacity s).host = s.host := rfl
@[simp] theorem writeCapacity_reply (s : State) : (writeCapacity s).reply = s.reply := rfl
@[simp] theorem imgAt_writeCapacity (s : State) (a : Nat) : imgAt (writeCapacity s) a = imgAt s a := rfl
@[simp] theorem msgAt_writeCapacity (s : State) (i : Nat) : msgAt (writeCapacity s) i = msgAt s i := rfl
@[simp] theorem bitsAt_writeCapacity (s : State) (k : Nat) : bitsAt (writeCapacity s) k = bitsAt s k := rfl
@[simp] theorem pixelCount_writeCapacity (s : State) : pixelCount (writeCapacity s) = pixelCount s := rfl
@[simp] theorem channelAddr_writeCapacity (s : State) (p ch : Nat) : channelAddr (writeCapacity s) p ch = channelAddr s p ch := rfl
@[simp] theorem message_writeCapacity (s : State) : message (writeCapacity s) = message s := rfl
@[simp] theorem bitstream_writeCapacity (s : State) : bitstream (writeCapacity s) = bitstream s := rfl
@[simp] theorem faulted_writeCapacity (s : State) : faulted (writeCapacity s) = faulted s := rfl

/-! `embedWalk` -/

@[simp] theorem embedWalk_width (L : Nat) (s : State) : (embedWalk L s).width = s.width := rfl
@[simp] theorem embedWalk_height (L : Nat) (s : State) : (embedWalk L s).height = s.height := rfl
@[simp] theorem embedWalk_chans (L : Nat) (s : State) : (embedWalk L s).chans = s.chans := rfl
@[simp] theorem embedWalk_mlen (L : Nat) (s : State) : (embedWalk L s).mlen = s.mlen := rfl
@[simp] theorem embedWalk_blen (L : Nat) (s : State) : (embedWalk L s).blen = s.blen := rfl
@[simp] theorem embedWalk_capacity (L : Nat) (s : State) : (embedWalk L s).capacity = s.capacity := rfl
@[simp] theorem embedWalk_status (L : Nat) (s : State) : (embedWalk L s).status = s.status := rfl
@[simp] theorem embedWalk_msg (L : Nat) (s : State) : (embedWalk L s).msg = s.msg := rfl
@[simp] theorem embedWalk_bits (L : Nat) (s : State) : (embedWalk L s).bits = s.bits := rfl
@[simp] theorem embedWalk_params (L : Nat) (s : State) : (embedWalk L s).params = s.params := rfl
@[simp] theorem embedWalk_host (L : Nat) (s : State) : (embedWalk L s).host = s.host := rfl
@[simp] theorem embedWalk_reply (L : Nat) (s : State) : (embedWalk L s).reply = s.reply := rfl
@[simp] theorem msgAt_embedWalk (L : Nat) (s : State) (i : Nat) : msgAt (embedWalk L s) i = msgAt s i := rfl
@[simp] theorem bitsAt_embedWalk (L : Nat) (s : State) (k : Nat) : bitsAt (embedWalk L s) k = bitsAt s k := rfl
@[simp] theorem pixelCount_embedWalk (L : Nat) (s : State) : pixelCount (embedWalk L s) = pixelCount s := rfl
@[simp] theorem channelAddr_embedWalk (L : Nat) (s : State) (p ch : Nat) : channelAddr (embedWalk L s) p ch = channelAddr s p ch := rfl
@[simp] theorem message_embedWalk (L : Nat) (s : State) : message (embedWalk L s) = message s := rfl
@[simp] theorem bitstream_embedWalk (L : Nat) (s : State) : bitstream (embedWalk L s) = bitstream s := rfl
@[simp] theorem faulted_embedWalk (L : Nat) (s : State) : faulted (embedWalk L s) = faulted s := rfl

/-! `extractWalk` -/

@[simp] theorem extractWalk_width (s : State) : (extractWalk s).width = s.width := rfl
@[simp] theorem extractWalk_height (s : State) : (extractWalk s).height = s.height := rfl
@[simp] theorem extractWalk_chans (s : State) : (extractWalk s).chans = s.chans := rfl
@[simp] theorem extractWalk_mlen (s : State) : (extractWalk s).mlen = s.mlen := rfl
@[simp] theorem extractWalk_capacity (s : State) : (extractWalk s).capacity = s.capacity := rfl
@[simp] theorem extractWalk_status (s : State) : (extractWalk s).status = s.status := rfl
@[simp] theorem extractWalk_img (s : State) : (extractWalk s).img = s.img := rfl
@[simp] theorem extractWalk_msg (s : State) : (extractWalk s).msg = s.msg := rfl
@[simp] theorem extractWalk_params (s : State) : (extractWalk s).params = s.params := rfl
@[simp] theorem extractWalk_host (s : State) : (extractWalk s).host = s.host := rfl
@[simp] theorem extractWalk_reply (s : State) : (extractWalk s).reply = s.reply := rfl
@[simp] theorem imgAt_extractWalk (s : State) (a : Nat) : imgAt (extractWalk s) a = imgAt s a := rfl
@[simp] theorem msgAt_extractWalk (s : State) (i : Nat) : msgAt (extractWalk s) i = msgAt s i := rfl
@[simp] theorem pixelCount_extractWalk (s : State) : pixelCount (extractWalk s) = pixelCount s := rfl
@[simp] theorem channelAddr_extractWalk (s : State) (p ch : Nat) : channelAddr (extractWalk s) p ch = channelAddr s p ch := rfl
@[simp] theorem message_extractWalk (s : State) : message (extractWalk s) = message s := rfl
@[simp] theorem faulted_extractWalk (s : State) : faulted (extractWalk s) = faulted s := rfl

end Sys2Proof.Machine
end

