-- ==== Sys2Proof/Laws/Memory.lean ====
section
/-! SUPPORT. Laws of the memories: reading after writing, and the canonical form and the depth that every memory
operation keeps. -/

namespace Sys2Proof.Machine

variable {w : Nat}

@[simp] theorem memory_find_nil (a : Nat) : Memory.find ([] : Memory w) a = none := rfl

theorem memory_find_write (m : Memory w) (a : Nat) (v : BitVec w) (x : Nat) :
    Memory.find (Memory.write m a v) x = if x = a then some v else Memory.find m x := by
  induction m with
  | nil => simp [Memory.write, Memory.find]
  | cons e rest ih =>
    obtain ⟨b, u⟩ := e
    simp only [Memory.write]
    split
    · simp [Memory.find]
    · split
      · subst_vars; simp only [Memory.find]; split <;> rfl
      · simp only [Memory.find, ih]
        by_cases hxa : x = a
        · subst hxa; simp_all
        · simp [hxa]

/-- One write, then one read: the value written at its address, the old value everywhere else. -/
theorem memory_read_write (pu : Nat → BitVec w) (m : Memory w) (a : Nat) (v : BitVec w) (x : Nat) :
    Memory.read pu (Memory.write m a v) x = if x = a then v else Memory.read pu m x := by
  simp only [Memory.read, memory_find_write]
  split <;> rfl

@[simp] theorem memory_read_write_same (pu : Nat → BitVec w) (m : Memory w) (a : Nat) (v : BitVec w) :
    Memory.read pu (Memory.write m a v) a = v := by simp [memory_read_write]

theorem memory_read_write_other (pu : Nat → BitVec w) (m : Memory w) {a x : Nat} (v : BitVec w) (h : x ≠ a) :
    Memory.read pu (Memory.write m a v) x = Memory.read pu m x := by simp [memory_read_write, h]

/-- A sequence written at consecutive addresses, then one read: the element that was put there, the old value outside. -/
theorem memory_read_writeAll (pu : Nat → BitVec w) (vs : List (BitVec w)) (m : Memory w) (a x : Nat) :
    Memory.read pu (Memory.writeAll m a vs) x =
      if a ≤ x then (vs[x - a]?).getD (Memory.read pu m x) else Memory.read pu m x := by
  induction vs generalizing m a with
  | nil => simp [Memory.writeAll]
  | cons v rest ih =>
    simp only [Memory.writeAll, ih, memory_read_write]
    rcases Nat.lt_trichotomy x a with h | h | h
    · simp [show ¬a + 1 ≤ x by omega, show ¬a ≤ x by omega, show x ≠ a by omega]
    · subst h; simp
    · obtain ⟨d, rfl⟩ : ∃ d, x = a + (d + 1) := ⟨x - a - 1, by omega⟩
      simp [show a + 1 ≤ a + (d + 1) by omega, show a + (d + 1) - (a + 1) = d by omega]

/-- The first listed address of a memory, if any, is above `a`. -/
def Memory.startsAbove (a : Nat) (m : Memory w) : Bool :=
  match m with
  | [] => true
  | (b, _) :: _ => a < b

theorem memory_wf_cons (e : Nat × BitVec w) (rest : Memory w) :
    Memory.wf (e :: rest) = (Memory.startsAbove e.1 rest && Memory.wf rest) := by
  obtain ⟨a, u⟩ := e
  cases rest with
  | nil => simp [Memory.wf, Memory.startsAbove]
  | cons f rest => obtain ⟨b, v⟩ := f; simp [Memory.wf, Memory.startsAbove]

theorem memory_startsAbove_write {m : Memory w} {c a : Nat} (v : BitVec w) (hca : c < a)
    (h : Memory.startsAbove c m = true) : Memory.startsAbove c (Memory.write m a v) = true := by
  cases m with
  | nil => simpa [Memory.write, Memory.startsAbove] using hca
  | cons e rest =>
    obtain ⟨b, u⟩ := e
    simp only [Memory.startsAbove, decide_eq_true_eq] at h
    simp only [Memory.write]
    split
    · simpa [Memory.startsAbove] using hca
    · split <;> simpa [Memory.startsAbove] using by omega

/-- A write keeps the addresses strictly rising. -/
theorem memory_wf_write {m : Memory w} (a : Nat) (v : BitVec w) (h : Memory.wf m = true) :
    Memory.wf (Memory.write m a v) = true := by
  induction m with
  | nil => rfl
  | cons e rest ih =>
    obtain ⟨b, u⟩ := e
    have h' := h
    rw [memory_wf_cons, Bool.and_eq_true] at h'
    simp only [Memory.write]
    split
    · rename_i hab
      rw [memory_wf_cons, Bool.and_eq_true]
      exact ⟨by simpa [Memory.startsAbove] using hab, h⟩
    · split
      · subst_vars; rw [memory_wf_cons, Bool.and_eq_true]; exact h'
      · rw [memory_wf_cons, Bool.and_eq_true]
        exact ⟨memory_startsAbove_write v (by simp only at *; omega) h'.1, ih h'.2⟩

/-- A sequence of writes keeps the addresses strictly rising. -/
theorem memory_wf_writeAll (vs : List (BitVec w)) {m : Memory w} (a : Nat) (h : Memory.wf m = true) :
    Memory.wf (Memory.writeAll m a vs) = true := by
  induction vs generalizing m a with
  | nil => exact h
  | cons v rest ih => exact ih (a + 1) (memory_wf_write a v h)

/-- A write below the depth lists nothing at or beyond it. -/
theorem memory_within_write {m : Memory w} {bound : Option Nat} {a : Nat} (v : BitVec w)
    (ha : below a bound = true) (h : Memory.within bound m = true) :
    Memory.within bound (Memory.write m a v) = true := by
  induction m with
  | nil => simpa [Memory.write, Memory.within] using ha
  | cons e rest ih =>
    obtain ⟨b, u⟩ := e
    simp only [Memory.within, List.all_cons, Bool.and_eq_true] at h ih ⊢
    simp only [Memory.write]
    split
    · simp [ha, h.1, h.2]
    · split
      · simp [ha, h.2]
      · simp only [List.all_cons, Bool.and_eq_true]; exact ⟨h.1, ih h.2⟩

/-- A sequence of writes that ends below the depth lists nothing at or beyond it. -/
theorem memory_within_writeAll (vs : List (BitVec w)) {m : Memory w} {bound : Option Nat} (a : Nat)
    (ha : ∀ i, i < vs.length → below (a + i) bound = true) (h : Memory.within bound m = true) :
    Memory.within bound (Memory.writeAll m a vs) = true := by
  induction vs generalizing m a with
  | nil => exact h
  | cons v rest ih =>
    refine ih (a + 1) (fun i hi => ?_) (memory_within_write v (by simpa using ha 0 (by simp)) h)
    simpa [Nat.add_assoc, Nat.add_comm 1 i] using ha (i + 1) (by simpa using hi)

/-- The memories at reset are in canonical form. -/
theorem reset_memories_wf :
    Memory.wf State.reset.img = true ∧ Memory.wf State.reset.msg = true ∧ Memory.wf State.reset.bits = true :=
  ⟨rfl, rfl, rfl⟩

/-! One element written by the host (10_state.md R21), read back through the element accessors. -/

theorem imgAt_writeElement (s : State) (a v x : Nat) :
    imgAt (writeElement .img a v s) x = if x = a then BitVec.ofNat 8 v else imgAt s x :=
  memory_read_write ..

theorem msgAt_writeElement (s : State) (a v x : Nat) :
    msgAt (writeElement .msg a v s) x = if x = a then BitVec.ofNat 32 v else msgAt s x :=
  memory_read_write ..

theorem bitsAt_writeElement (s : State) (a v x : Nat) :
    bitsAt (writeElement .bits a v s) x = if x = a then BitVec.ofNat 1 v else bitsAt s x :=
  memory_read_write ..

end Sys2Proof.Machine
end

