-- ==== Sys2Proof/Laws/Walk.lean ====
section
/-! SUPPORT. What the two walks do: the nested loops of 42_insert_encode.md R122 and 43_extract_decode.md R142 visit the
carrying channels in stream order, and what each leaves in the memory it writes. -/

namespace Sys2Proof.Machine

/-- The address of the channel that carries bitstream bit `k`: pixel `k / 3`, channel `k mod 3` (30_encoding.md R74). -/
def carrierAddr (s : State) (k : Nat) : Nat := channelAddr s (k / 3) (k % 3)

theorem channelAddr_eq_carrierAddr (s : State) (p c : Nat) (hc : c < 3) :
    channelAddr s p c = carrierAddr s (3 * p + c) := by
  rw [carrierAddr, show (3 * p + c) / 3 = p by omega, show (3 * p + c) % 3 = c by omega]

/-- Two bits have two channels, since a pixel has at least three. -/
theorem carrierAddr_injective (s : State) (hch : 3 ≤ s.chans.toNat) {k l : Nat}
    (h : carrierAddr s k = carrierAddr s l) : k = l := by
  simp only [carrierAddr, channelAddr] at h
  have hd : ∀ n, (n / 3 * s.chans.toNat + n % 3) / s.chans.toNat = n / 3 := fun n => by
    have hm : n % 3 < s.chans.toNat := by omega
    rw [Nat.mul_comm, Nat.mul_add_div (by omega : 0 < s.chans.toNat), Nat.div_eq_of_lt hm, Nat.add_zero]
  have h1 : k / 3 = l / 3 := by rw [← hd k, ← hd l, h]
  have h2 : k % 3 = l % 3 := by rw [h1] at h; omega
  omega

/-- An alpha channel carries no bit. -/
theorem carrierAddr_ne_alpha (s : State) (hch : s.chans.toNat = 4) (k p : Nat) : carrierAddr s k ≠ 4 * p + 3 := by
  simp only [carrierAddr, channelAddr, hch]; omega

/-- A carrying channel of the image lies in the first `WIDTH*HEIGHT*CHANS` addresses. -/
theorem carrierAddr_lt (s : State) (hch : 3 ≤ s.chans.toNat) {k n : Nat} (hk : k < 3 * n) :
    carrierAddr s k < n * s.chans.toNat := by
  have h : k / 3 + 1 ≤ n := by omega
  calc carrierAddr s k < (k / 3 + 1) * s.chans.toNat := by simp only [carrierAddr, channelAddr]; rw [Nat.add_mul]; omega
    _ ≤ n * s.chans.toNat := Nat.mul_le_mul_right _ h

/-- Two nested loops over pixels and their three channels are one loop over the stream. -/
theorem foldl_pixels {α : Type} (f : α → Nat → Nat → α) (n : Nat) (x : α) :
    (List.range n).foldl (fun y p => (List.range 3).foldl (fun z c => f z p c) y) x
      = (List.range (3 * n)).foldl (fun y k => f y (k / 3) (k % 3)) x := by
  induction n with
  | zero => rfl
  | succ n ih =>
    rw [List.range_succ (n := n), List.foldl_append, ih, show 3 * (n + 1) = 3 * n + 1 + 1 + 1 by omega,
      List.range_succ (n := 3 * n + 1 + 1), List.range_succ (n := 3 * n + 1), List.range_succ (n := 3 * n)]
    simp only [List.foldl_append, List.foldl_cons, List.foldl_nil]
    rw [show (3 * n) / 3 = n by omega, show (3 * n + 1) / 3 = n by omega, show (3 * n + 1 + 1) / 3 = n by omega,
      show (3 * n) % 3 = 0 by omega, show (3 * n + 1) % 3 = 1 by omega, show (3 * n + 1 + 1) % 3 = 2 by omega]
    rfl

/-! The encode walk. -/

/-- The encode walk after `N` channel visits. -/
def embedVisits (s : State) (L N : Nat) (m : Memory 8) : Nat × Memory 8 :=
  (List.range N).foldl (fun w k => embedChannel s L (k / 3) w (k % 3)) (0, m)

theorem embedVisits_succ (s : State) (L N : Nat) (m : Memory 8) :
    embedVisits s L (N + 1) m = embedChannel s L (N / 3) (embedVisits s L N m) (N % 3) := by
  rw [embedVisits, List.range_succ, List.foldl_append]; rfl

theorem embedWalk_img (L : Nat) (s : State) :
    (embedWalk L s).img = (embedVisits s L (3 * pixelCount s) s.img).2 :=
  congrArg Prod.snd (foldl_pixels (fun w p c => embedChannel s L p w c) (pixelCount s) (0, s.img))

theorem embedVisits_cursor (s : State) (L N : Nat) (m : Memory 8) : (embedVisits s L N m).1 = min L N := by
  induction N with
  | zero => simp [embedVisits]
  | succ N ih =>
    rw [embedVisits_succ]
    simp only [embedChannel]
    split <;> simp only <;> omega

theorem embedVisits_step (s : State) (L N : Nat) (m : Memory 8) :
    (embedVisits s L (N + 1) m).2 =
      if N < L then
        Memory.write (embedVisits s L N m).2 (carrierAddr s N)
          (insCh (Memory.read Config.powerUpImg (embedVisits s L N m).2 (carrierAddr s N)) (bitsAt s N))
      else (embedVisits s L N m).2 := by
  rw [embedVisits_succ]
  have hc := embedVisits_cursor s L N m
  by_cases h : N < L
  · have h1 : (embedVisits s L N m).1 = N := by omega
    simp only [embedChannel, h1, if_pos h]; rfl
  · have h1 : ¬(embedVisits s L N m).1 < L := by omega
    simp only [embedChannel, if_neg h1, if_neg h]

/-- A channel the walk has not reached, or never reaches, holds what it held. -/
theorem embedVisits_other (s : State) (L N : Nat) (m : Memory 8) (a : Nat)
    (h : ∀ k, k < N → k < L → a ≠ carrierAddr s k) :
    Memory.read Config.powerUpImg (embedVisits s L N m).2 a = Memory.read Config.powerUpImg m a := by
  induction N with
  | zero => rfl
  | succ N ih =>
    have ih := ih fun k hk => h k (by omega)
    rw [embedVisits_step]
    split
    · rw [memory_read_write_other _ _ _ (h N (by omega) ‹_›), ih]
    · exact ih

/-- A channel the walk has reached carries its bit above its own seven upper bits. -/
theorem embedVisits_carrier (s : State) (L N : Nat) (m : Memory 8) (hch : 3 ≤ s.chans.toNat) {k : Nat}
    (hN : k < N) (hL : k < L) :
    Memory.read Config.powerUpImg (embedVisits s L N m).2 (carrierAddr s k)
      = insCh (Memory.read Config.powerUpImg m (carrierAddr s k)) (bitsAt s k) := by
  induction N with
  | zero => omega
  | succ N ih =>
    rw [embedVisits_step]
    rcases Nat.lt_succ_iff_lt_or_eq.mp hN with h | rfl
    · split
      · rw [memory_read_write_other _ _ _ fun e => by have := carrierAddr_injective s hch e; omega, ih h]
      · exact ih h
    · rw [if_pos hL, memory_read_write_same, embedVisits_other]
      intro j hj _ e
      have := carrierAddr_injective s hch e; omega

theorem embedVisits_wf (s : State) (L N : Nat) {m : Memory 8} (h : Memory.wf m = true) :
    Memory.wf (embedVisits s L N m).2 = true := by
  induction N with
  | zero => exact h
  | succ N ih =>
    rw [embedVisits_step]
    split
    · exact memory_wf_write _ _ ih
    · exact ih

theorem embedVisits_within (s : State) (L N : Nat) {m : Memory 8} {bound : Option Nat}
    (hb : ∀ k, k < N → below (carrierAddr s k) bound = true) (h : Memory.within bound m = true) :
    Memory.within bound (embedVisits s L N m).2 = true := by
  induction N with
  | zero => exact h
  | succ N ih =>
    have ih := ih fun k hk => hb k (by omega)
    rw [embedVisits_step]
    split
    · exact memory_within_write _ (hb N (by omega)) ih
    · exact ih

/-- `embedWalk` on a carrying channel that the bitstream reaches. -/
theorem imgAt_embedWalk_carrier (L : Nat) (s : State) (hch : 3 ≤ s.chans.toNat) {k : Nat}
    (hk : k < 3 * pixelCount s) (hL : k < L) :
    imgAt (embedWalk L s) (carrierAddr s k) = insCh (imgAt s (carrierAddr s k)) (bitsAt s k) := by
  simp only [imgAt, embedWalk_img]; exact embedVisits_carrier s L _ _ hch hk hL

/-- `embedWalk` everywhere else. -/
theorem imgAt_embedWalk_other (L : Nat) (s : State) (a : Nat)
    (h : ∀ k, k < 3 * pixelCount s → k < L → a ≠ carrierAddr s k) : imgAt (embedWalk L s) a = imgAt s a := by
  simp only [imgAt, embedWalk_img]; exact embedVisits_other s L _ _ a h

/-! The decode walk. -/

/-- The decode walk after `N` channel visits. -/
def extractVisits (s : State) (N : Nat) (m : Memory 1) : Nat × Memory 1 :=
  (List.range N).foldl (fun w k => extractChannel s (k / 3) w (k % 3)) (0, m)

theorem extractVisits_succ (s : State) (N : Nat) (m : Memory 1) :
    extractVisits s (N + 1) m = extractChannel s (N / 3) (extractVisits s N m) (N % 3) := by
  rw [extractVisits, List.range_succ, List.foldl_append]; rfl

theorem extractVisits_cursor (s : State) (N : Nat) (m : Memory 1) : (extractVisits s N m).1 = N := by
  induction N with
  | zero => rfl
  | succ N ih => rw [extractVisits_succ]; simp only [extractChannel]; omega

theorem extractVisits_step (s : State) (N : Nat) (m : Memory 1) :
    (extractVisits s (N + 1) m).2
      = Memory.write (extractVisits s N m).2 N (extCh (imgAt s (carrierAddr s N))) := by
  rw [extractVisits_succ]
  simp only [extractChannel, extractVisits_cursor]; rfl

theorem extractVisits_read (s : State) (N : Nat) (m : Memory 1) (k : Nat) :
    Memory.read Config.powerUpBits (extractVisits s N m).2 k
      = if k < N then extCh (imgAt s (carrierAddr s k)) else Memory.read Config.powerUpBits m k := by
  induction N with
  | zero => simp [extractVisits]
  | succ N ih =>
    rw [extractVisits_step, memory_read_write, ih]
    rcases Nat.lt_trichotomy k N with h | h | h
    · rw [if_neg (by omega), if_pos h, if_pos (by omega)]
    · subst h; simp
    · rw [if_neg (by omega), if_neg (by omega), if_neg (by omega)]

theorem extractVisits_wf (s : State) (N : Nat) {m : Memory 1} (h : Memory.wf m = true) :
    Memory.wf (extractVisits s N m).2 = true := by
  induction N with
  | zero => exact h
  | succ N ih => rw [extractVisits_step]; exact memory_wf_write _ _ ih

theorem extractVisits_within (s : State) (N : Nat) {m : Memory 1} {bound : Option Nat}
    (hb : ∀ k, k < N → below k bound = true) (h : Memory.within bound m = true) :
    Memory.within bound (extractVisits s N m).2 = true := by
  induction N with
  | zero => exact h
  | succ N ih =>
    rw [extractVisits_step]
    exact memory_within_write _ (hb N (by omega)) (ih fun k hk => hb k (by omega))

theorem extractWalk_visits (s : State) :
    (List.range (pixelCount s)).foldl (extractPixel s) (0, s.bits) = extractVisits s (3 * pixelCount s) s.bits :=
  foldl_pixels (fun w p c => extractChannel s p w c) (pixelCount s) (0, s.bits)

theorem extractWalk_bits (s : State) : (extractWalk s).bits = (extractVisits s (3 * pixelCount s) s.bits).2 :=
  congrArg Prod.snd (extractWalk_visits s)

/-- `extractWalk` leaves the number of visited channels in `BLEN`. -/
@[simp] theorem extractWalk_blen (s : State) : (extractWalk s).blen = 3 * pixelCount s :=
  (congrArg Prod.fst (extractWalk_visits s)).trans (extractVisits_cursor ..)

/-- `extractWalk` on every bit of the bitstream memory. -/
theorem bitsAt_extractWalk (s : State) (k : Nat) :
    bitsAt (extractWalk s) k = if k < 3 * pixelCount s then extCh (imgAt s (carrierAddr s k)) else bitsAt s k := by
  simp only [bitsAt, extractWalk_bits]; exact extractVisits_read ..

end Sys2Proof.Machine
end

