-- ==== Sys2Proof/Laws/Command.lean ====
section
/-! SUPPORT. What starting and ending a command does: `STATUS` after a result and after a fault, and the three ways
`runCommand` answers. -/

namespace Sys2Proof.Machine

/-! `STATUS` after a result (60_exceptions.md R184). -/

@[simp] theorem resultField_statusOfResult (r : Result) (st : BitVec 8) :
    resultField (statusOfResult r st) = resultCode r := by
  cases r <;> revert st <;> decide

@[simp] theorem doneField_statusOfResult (r : Result) (st : BitVec 8) : doneField (statusOfResult r st) = true := by
  cases r <;> revert st <;> decide

@[simp] theorem fcauseField_statusOfResult (r : Result) (st : BitVec 8) :
    fcauseField (statusOfResult r st) = fcauseField st := by
  cases r <;> revert st <;> decide

@[simp] theorem faultField_statusOfResult (r : Result) (st : BitVec 8) :
    faultField (statusOfResult r st) = faultField st := by
  cases r <;> revert st <;> decide

@[simp] theorem reserved3_statusOfResult (r : Result) (st : BitVec 8) :
    (statusOfResult r st)[3] = st[3] := by
  cases r <;> revert st <;> decide

@[simp] theorem reserved6_statusOfResult (r : Result) (st : BitVec 8) :
    (statusOfResult r st)[6] = st[6] := by
  cases r <;> revert st <;> decide

/-- A later result replaces an earlier one (60_exceptions.md R192: "overwritten by the next completing command"). -/
@[simp] theorem statusOfResult_statusOfResult (r q : Result) (st : BitVec 8) :
    statusOfResult r (statusOfResult q st) = statusOfResult r st := by
  cases r <;> cases q <;> revert st <;> decide

/-! `STATUS` after a fault (60_exceptions.md R188). -/

@[simp] theorem resultField_statusOfFault (c : FaultCause) (st : BitVec 8) :
    resultField (statusOfFault c st) = resultField st := by
  cases c <;> revert st <;> decide

@[simp] theorem doneField_statusOfFault (c : FaultCause) (st : BitVec 8) :
    doneField (statusOfFault c st) = doneField st := by
  cases c <;> revert st <;> decide

@[simp] theorem fcauseField_statusOfFault (c : FaultCause) (st : BitVec 8) :
    fcauseField (statusOfFault c st) = causeCode c := by
  cases c <;> revert st <;> decide

@[simp] theorem faultField_statusOfFault (c : FaultCause) (st : BitVec 8) :
    faultField (statusOfFault c st) = true := by
  cases c <;> revert st <;> decide

@[simp] theorem reserved3_statusOfFault (c : FaultCause) (st : BitVec 8) :
    (statusOfFault c st)[3] = st[3] := by
  cases c <;> revert st <;> decide

@[simp] theorem reserved6_statusOfFault (c : FaultCause) (st : BitVec 8) :
    (statusOfFault c st)[6] = st[6] := by
  cases c <;> revert st <;> decide

@[simp] theorem faulted_finish (r : Result) (s : State) : faulted (finish r s) = faulted s :=
  faultField_statusOfResult r s.status

@[simp] theorem faulted_raiseFault (c : FaultCause) (s : State) : faulted (raiseFault c s) = true :=
  faultField_statusOfFault c s.status

/-! Starting a command. -/

theorem runCommand_of_faulted {ok : Bool} {e : State → State} {s : State} (h : faulted s = true) :
    runCommand ok e s = .next s := by simp [runCommand, h]

theorem runCommand_of_bad {ok : Bool} {e : State → State} {s : State} (h : faulted s = false) (hok : ok = false) :
    runCommand ok e s = .next (raiseFault .badConfig s) := by simp [runCommand, h, hok]

theorem runCommand_of_ok {ok : Bool} {e : State → State} {s : State} (h : faulted s = false) (hok : ok = true) :
    runCommand ok e s = .next (e s) := by simp [runCommand, h, hok]

/-- All a command can do: nothing while faulted, `BadConfig`, or its effect. -/
theorem runCommand_cases (ok : Bool) (e : State → State) (s : State) :
    (faulted s = true ∧ runCommand ok e s = .next s) ∨
    (faulted s = false ∧ ok = false ∧ runCommand ok e s = .next (raiseFault .badConfig s)) ∨
    (faulted s = false ∧ ok = true ∧ runCommand ok e s = .next (e s)) := by
  cases h : faulted s with
  | true => exact .inl ⟨rfl, runCommand_of_faulted h⟩
  | false =>
    cases hok : ok with
    | false => exact .inr (.inl ⟨rfl, rfl, runCommand_of_bad h rfl⟩)
    | true => exact .inr (.inr ⟨rfl, rfl, runCommand_of_ok h rfl⟩)

/-- The operand checks of each command (60_exceptions.md R187). -/
def operandsOk (i : Instr) (s : State) : Bool :=
  match i with
  | .chkcap => dimensionsOk s && bitstreamFits s
  | .pack => messageFits s
  | .unpack => bitstreamFits s
  | .embed => imageOk s && bitstreamFits s
  | .extract => imageOk s
  | .encode => imageOk s && messageFits s
  | .decode => imageOk s

/-- What each command does once its operands are legal. -/
def effectOf (i : Instr) : State → State :=
  match i with
  | .chkcap => chkcapEffect
  | .pack => packEffect
  | .unpack => unpackEffect
  | .embed => embedEffect
  | .extract => extractEffect
  | .encode => encodeEffect
  | .decode => decodeEffect

/-- Every command is its operand checks and its effect, started the same way. -/
theorem exec_eq_runCommand (i : Instr) (s : State) : exec i s = runCommand (operandsOk i s) (effectOf i) s := by
  cases i <;> rfl

/-- A command while the core is faulted (60_exceptions.md R189). -/
theorem exec_of_faulted {i : Instr} {s : State} (h : faulted s = true) : exec i s = .next s := by
  rw [exec_eq_runCommand]; exact runCommand_of_faulted h

/-- A command on illegal operands (60_exceptions.md R187, R188). -/
theorem exec_of_bad {i : Instr} {s : State} (h : faulted s = false) (hok : operandsOk i s = false) :
    exec i s = .next (raiseFault .badConfig s) := by
  rw [exec_eq_runCommand]; exact runCommand_of_bad h hok

/-- A command on legal operands. -/
theorem exec_of_ok {i : Instr} {s : State} (h : faulted s = false) (hok : operandsOk i s = true) :
    exec i s = .next (effectOf i s) := by
  rw [exec_eq_runCommand]; exact runCommand_of_ok h hok

/-- No command stops. -/
theorem exec_answers (i : Instr) (s : State) : ∃ t, exec i s = .next t := by
  rw [exec_eq_runCommand]
  rcases runCommand_cases (operandsOk i s) (effectOf i) s with ⟨_, h⟩ | ⟨_, _, h⟩ | ⟨_, _, h⟩ <;> exact ⟨_, h⟩

/-- Every effect ends by writing one result to `STATUS` and nothing else there. -/
theorem effectOf_status (i : Instr) (s : State) : ∃ r, (effectOf i s).status = statusOfResult r s.status := by
  cases i with
  | chkcap => simp only [effectOf, chkcapEffect]; split <;> exact ⟨_, rfl⟩
  | pack => simp only [effectOf, packEffect]; split <;> exact ⟨_, rfl⟩
  | unpack => simp only [effectOf, unpackEffect]; split <;> exact ⟨_, rfl⟩
  | embed => simp only [effectOf, embedEffect]; split <;> exact ⟨_, rfl⟩
  | extract => exact ⟨_, rfl⟩
  | encode =>
    simp only [effectOf, encodeEffect, embedEffect]
    split
    · exact ⟨_, rfl⟩
    · split <;> exact ⟨_, rfl⟩
  | decode => simp only [effectOf, decodeEffect, unpackEffect]; split <;> exact ⟨_, rfl⟩

/-! The operand checks, as propositions. -/

theorem atMost_iff (n : Nat) (bound : Option Nat) : atMost n bound = true ↔ ∀ b, bound = some b → n ≤ b := by
  cases bound <;> simp [atMost]

theorem below_iff (n : Nat) (bound : Option Nat) : below n bound = true ↔ ∀ b, bound = some b → n < b := by
  cases bound <;> simp [below]

theorem dimensionsOk_iff (s : State) : dimensionsOk s = true ↔ 1 ≤ s.width ∧ 1 ≤ s.height := by simp [dimensionsOk]

theorem chansOk_iff (s : State) : chansOk s = true ↔ s.chans = 3#3 ∨ s.chans = 4#3 := by simp [chansOk]

theorem imageOk_iff (s : State) :
    imageOk s = true ↔ (dimensionsOk s = true ∧ chansOk s = true) ∧ imageFits s = true := by simp [imageOk]

theorem chans_ge_of_imageOk {s : State} (h : imageOk s = true) : 3 ≤ s.chans.toNat := by
  rcases (chansOk_iff s).mp ((imageOk_iff s).mp h).1.2 with h | h <;> rw [h] <;> decide

theorem imageFits_iff (s : State) :
    imageFits s = true ↔ ∀ b, s.params.maxBits = some b → pixelCount s ≤ b / 3 := by
  cases h : s.params.maxBits <;> simp [imageFits, maxPix, atMost, h]

theorem messageFits_iff (s : State) :
    messageFits s = true ↔ ∀ b, s.params.maxBits = some b → s.mlen ≤ (b - 16) / 8 := by
  cases h : s.params.maxBits <;> simp [messageFits, maxMsg, atMost, h]

theorem bitstreamFits_iff (s : State) : bitstreamFits s = true ↔ ∀ b, s.params.maxBits = some b → s.blen ≤ b :=
  atMost_iff ..

theorem capacityExceeded_iff (s : State) : capacityExceeded s = true ↔ s.width * s.height * 3 < s.blen := by
  simp [capacityExceeded, capUnit]

end Sys2Proof.Machine
end

