-- ==== Sys2Proof/Laws/Port.lean ====
section
/-! SUPPORT. What one step can do: the transaction it performs, and each transaction's outcome, so that a proof about
every step splits into these cases and unfolds nothing. -/

namespace Sys2Proof.Machine

theorem step_of_idle {s : State} (h : s.host = []) : step s = .next s := by simp [step, h]

theorem step_of_pending {s : State} {t : HostTxn} {rest : List HostTxn} (h : s.host = t :: rest) :
    step s = transact t { s with host := rest, reply := none } := by simp [step, h]

/-- A write of a word to `CMD` is that command port's transaction. -/
theorem transact_command {w : Nat} (h : w < 256) (s : State) :
    transact (.regWrite 0 w) s = command (BitVec.ofNat 8 w) s := by
  simp [transact, regWrite, regWidth, fitsWidth, h]

/-- All a write to `CMD` can do: nothing while faulted, a fault, or a command's effect. -/
theorem command_cases {w : Byte} {s t : State} (h : command w s = .next t) :
    (faulted s = true ∧ t = s) ∨
    (faulted s = false ∧ (∃ e, decode w = .error e) ∧ t = raiseFault .illegalCommand s) ∨
    (faulted s = false ∧ ∃ i, decode w = .ok i ∧ operandsOk i s = false ∧ t = raiseFault .badConfig s) ∨
    (faulted s = false ∧ ∃ i, decode w = .ok i ∧ operandsOk i s = true ∧ t = effectOf i s) := by
  unfold command at h
  cases hf : faulted s with
  | true => rw [if_pos hf] at h; cases h; exact .inl ⟨rfl, rfl⟩
  | false =>
    rw [if_neg (by simp [hf])] at h
    cases hd : decode w with
    | error e => rw [hd] at h; cases h; exact .inr (.inl ⟨rfl, ⟨e, rfl⟩, rfl⟩)
    | ok i =>
      rw [hd] at h
      simp only at h
      cases hok : operandsOk i s with
      | false => rw [exec_of_bad hf hok] at h; cases h; exact .inr (.inr (.inl ⟨rfl, i, rfl, hok, rfl⟩))
      | true => rw [exec_of_ok hf hok] at h; cases h; exact .inr (.inr (.inr ⟨rfl, i, rfl, hok, rfl⟩))

/-- All a transaction that answers a next state can do. -/
theorem transact_cases {x : HostTxn} {s t : State} (h : transact x s = .next t) :
    (∃ n v, x = .regRead n ∧ readReg n s = some v ∧ t = { s with reply := some v }) ∨
    (∃ w, x = .regWrite 0 w ∧ w < 256 ∧ command (BitVec.ofNat 8 w) s = .next t) ∨
    (∃ n v w, x = .regWrite n v ∧ n ≠ 0 ∧ regWidth s.params n = some w ∧ fitsWidth w v = true ∧ t = writeReg n v s) ∨
    (∃ sp a, x = .memRead sp a ∧ below a (depth s.params sp) = true
      ∧ t = { s with reply := some (elementAt sp a s) }) ∨
    (∃ sp a v, x = .memWrite sp a v ∧ below a (depth s.params sp) = true ∧ v < 2 ^ elementWidth sp
      ∧ t = writeElement sp a v s) ∨
    (x = .reset ∧ t = resetRegisters s) := by
  cases x with
  | regRead n =>
    cases hr : readReg n s with
    | none => simp [transact, regRead, hr] at h
    | some v =>
      simp only [transact, regRead, hr, Host.Outcome.next.injEq] at h
      exact .inl ⟨n, v, rfl, hr, h.symm⟩
  | regWrite n v =>
    cases hw : regWidth s.params n with
    | none => simp [transact, regWrite, hw] at h
    | some w =>
      cases hf : fitsWidth w v with
      | false => simp [transact, regWrite, hw, hf] at h
      | true =>
        by_cases hn : n = 0
        · subst hn
          simp only [regWidth, Option.some.injEq] at hw
          subst hw
          have hv : v < 256 := by simpa [fitsWidth] using hf
          exact .inr (.inl ⟨v, rfl, hv, by rwa [transact_command hv] at h⟩)
        · simp only [transact, regWrite, hw, hf, if_true, if_neg hn, Host.Outcome.next.injEq] at h
          exact .inr (.inr (.inl ⟨n, v, w, rfl, hn, hw, hf, h.symm⟩))
  | memRead sp a =>
    cases hb : below a (depth s.params sp) with
    | false => simp [transact, memRead, hb] at h
    | true =>
      simp only [transact, memRead, hb, if_true, Host.Outcome.next.injEq] at h
      exact .inr (.inr (.inr (.inl ⟨sp, a, rfl, hb, h.symm⟩)))
  | memWrite sp a v =>
    cases hb : below a (depth s.params sp) with
    | false => simp [transact, memWrite, hb] at h
    | true =>
      by_cases hv : v < 2 ^ elementWidth sp
      · simp only [transact, memWrite, hb, hv, if_true, Host.Outcome.next.injEq] at h
        exact .inr (.inr (.inr (.inr (.inl ⟨sp, a, v, rfl, hb, hv, h.symm⟩))))
      · simp [transact, memWrite, hb, hv] at h
  | reset =>
    simp only [transact, Host.Outcome.next.injEq] at h
    exact .inr (.inr (.inr (.inr (.inr ⟨rfl, h.symm⟩))))

/-- A command port always answers. -/
theorem command_answers (w : Byte) (s : State) : ∃ t, command w s = .next t := by
  unfold command
  split
  · exact ⟨_, rfl⟩
  · split
    · exact exec_answers _ _
    · exact ⟨_, rfl⟩

@[simp] theorem writeReg_status (n v : Nat) (s : State) : (writeReg n v s).status = s.status := by
  unfold writeReg; split <;> rfl

@[simp] theorem writeElement_status (sp : Space) (a v : Nat) (s : State) :
    (writeElement sp a v s).status = s.status := by cases sp <;> rfl

theorem fitsWidth_iff (w : Option Nat) (v : Nat) : fitsWidth w v = true ↔ ∀ n, w = some n → v < 2 ^ n := by
  cases w <;> simp [fitsWidth]

end Sys2Proof.Machine
end

