-- ==== Sys2Proof/Laws/Stream.lean ====
section
/-! SUPPORT. The packer's and the unpacker's sequences, element by element, and how they reach the memories. -/

namespace Sys2Proof.Machine

@[simp] theorem length_message (s : State) : (message s).length = s.mlen := by simp [message]

@[simp] theorem length_bitstream (s : State) : (bitstream s).length = s.blen := by simp [bitstream]

theorem getElem?_message (s : State) {i : Nat} (h : i < s.mlen) : (message s)[i]? = some (msgAt s i) := by
  simp [message, h]

theorem getElem?_bitstream (s : State) {k : Nat} (h : k < s.blen) : (bitstream s)[k]? = some (bitsAt s k) := by
  simp [bitstream, h]

theorem getElem?_bitstream_of_ge (s : State) {k : Nat} (h : s.blen ≤ k) : (bitstream s)[k]? = none := by
  simp [bitstream, h]

@[simp] theorem length_bits8 (b : Byte) : (bits8 b).length = 8 := rfl

@[simp] theorem length_sentinelBits : sentinelBits.length = 16 := rfl

@[simp] theorem dataBits_nil : dataBits [] = [] := rfl

@[simp] theorem dataBits_cons (c : Char32) (M : List Char32) :
    dataBits (c :: M) = bits8 (c.setWidth 8) ++ dataBits M := rfl

@[simp] theorem length_dataBits (M : List Char32) : (dataBits M).length = 8 * M.length := by
  induction M with
  | nil => rfl
  | cons c M ih => simp [ih]; omega

theorem legalChar_iff (c : Char32) : legalChar c = true ↔ c.toNat ≤ 255 := decide_eq_true_iff

theorem all_legalChar_iff (M : List Char32) : M.all legalChar = true ↔ ∀ c ∈ M, c.toNat ≤ 255 := by
  simp only [List.all_eq_true, legalChar_iff]

theorem getElem?_bits8 (b : Byte) {t : Nat} (h : t < 8) : (bits8 b)[t]? = some (bitAt b (7 - t)) := by
  match t, h with
  | 0, _ | 1, _ | 2, _ | 3, _ | 4, _ | 5, _ | 6, _ | 7, _ => rfl

theorem bitAt_setWidth (c : Char32) {i : Nat} (h : i < 8) : bitAt (c.setWidth 8) i = bitAt c i := by simp [bitAt, h]

/-- Data bit `8*i + t` is bit `7 - t` of character `i` (30_encoding.md R70). -/
theorem getElem?_dataBits {M : List Char32} {i : Nat} {c : Char32} (h : M[i]? = some c) {t : Nat} (ht : t < 8) :
    (dataBits M)[8 * i + t]? = some (bitAt c (7 - t)) := by
  induction M generalizing i with
  | nil => simp at h
  | cons d M ih =>
    rw [dataBits_cons]
    cases i with
    | zero =>
      obtain rfl : d = c := by simpa using h
      rw [List.getElem?_append_left (by simp; omega), Nat.mul_zero, Nat.zero_add, getElem?_bits8 _ ht,
        bitAt_setWidth _ (by omega)]
    | succ i =>
      rw [List.getElem?_append_right (by simp; omega), length_bits8,
        show 8 * (i + 1) + t - 8 = 8 * i + t by omega]
      exact ih (by simpa using h)

/-- `pack` on legal characters. -/
theorem pack_of_legal {M : List Char32} (h : ∀ c ∈ M, c.toNat ≤ 255) : pack M = .ok (dataBits M ++ sentinelBits) := by
  rw [pack, if_pos ((all_legalChar_iff M).mpr h)]

/-- `pack` with an illegal character. -/
theorem pack_of_illegal {M : List Char32} {c : Char32} (hc : c ∈ M) (h : 255 < c.toNat) :
    pack M = .error .invalidCharacter := by
  rw [pack, if_neg fun hall => by have := (all_legalChar_iff M).mp hall c hc; omega]

/-- The search from `j` on is the search from 0 on, moved by `j`. -/
theorem findSentinelFrom_add (j : Nat) (B : List Bit) :
    findSentinelFrom j B = (findSentinelFrom 0 B).map (· + j) := by
  induction B generalizing j with
  | nil => rfl
  | cons b rest ih =>
    simp only [findSentinelFrom]
    split
    · simp
    · rw [ih (j + 1), ih (0 + 1), Option.map_map]
      congr 1; funext n; simp only [Function.comp_apply]; omega

/-- The search finds exactly the first position at which sixteen bits equal the sentinel. -/
theorem findSentinel_eq_some_iff (B : List Bit) (j : Nat) :
    findSentinel B = some j ↔
      (B.drop j).take 16 = sentinelBits ∧ ∀ i, i < j → (B.drop i).take 16 ≠ sentinelBits := by
  unfold findSentinel
  induction B generalizing j with
  | nil => simp [findSentinelFrom, sentinelBits, sentinelLength]
  | cons b rest ih =>
    simp only [findSentinelFrom, sentinelLength]
    by_cases h : (b :: rest).take 16 = sentinelBits
    · rw [if_pos h]
      constructor
      · rintro ⟨⟩; exact ⟨h, fun i hi => absurd hi (Nat.not_lt_zero i)⟩
      · rintro ⟨-, h2⟩
        cases j with
        | zero => rfl
        | succ j => exact absurd h (h2 0 (Nat.succ_pos j))
    · rw [if_neg h, findSentinelFrom_add (0 + 1)]
      cases j with
      | zero => simpa using h
      | succ j =>
        have hm : Option.map (· + (0 + 1)) (findSentinelFrom 0 rest) = some (j + 1)
            ↔ findSentinelFrom 0 rest = some j := by
          cases findSentinelFrom 0 rest <;> simp
        rw [hm, ih]
        constructor
        · rintro ⟨h1, h2⟩
          refine ⟨h1, fun i hi => ?_⟩
          cases i with
          | zero => exact h
          | succ i => exact h2 i (by omega)
        · rintro ⟨h1, h2⟩
          exact ⟨h1, fun i hi => h2 (i + 1) (by omega)⟩

/-- The search fails exactly when no position matches. -/
theorem findSentinel_eq_none_iff (B : List Bit) :
    findSentinel B = none ↔ ∀ j, (B.drop j).take 16 ≠ sentinelBits := by
  constructor
  · intro h j
    induction j using Nat.strong_induction_on with
    | _ j ih => intro hj; rw [(findSentinel_eq_some_iff B j).mpr ⟨hj, ih⟩] at h; cases h
  · intro h
    cases hf : findSentinel B with
    | none => rfl
    | some j => exact absurd ((findSentinel_eq_some_iff B j).mp hf).1 (h j)

/-- A match, bit by bit: fifteen 1s and a 0 (41_pack_unpack.md R104). -/
theorem match_iff (B : List Bit) (j : Nat) :
    (B.drop j).take 16 = sentinelBits ↔ (∀ t, t < 15 → B[j + t]? = some 1#1) ∧ B[j + 15]? = some 0#1 := by
  rw [List.ext_getElem?_iff]
  have hs : ∀ t, t < 15 → sentinelBits[t]? = some 1#1 := by decide
  have h0 : sentinelBits[15]? = some 0#1 := rfl
  constructor
  · intro h
    have hg : ∀ t, t < 16 → B[j + t]? = sentinelBits[t]? := fun t ht => by
      rw [← h t, List.getElem?_take, if_pos ht, List.getElem?_drop]
    exact ⟨fun t ht => by rw [hg t (by omega), hs t ht], by rw [hg 15 (by omega), h0]⟩
  · rintro ⟨h1, h2⟩ t
    rw [List.getElem?_take]
    split
    · rename_i ht
      rw [List.getElem?_drop]
      rcases Nat.lt_succ_iff_lt_or_eq.mp ht with h | rfl
      · rw [h1 t h, hs t h]
      · rw [h2, h0]
    · rename_i ht
      rw [List.getElem?_eq_none (by simp; omega)]

@[simp] theorem length_charactersOf (n : Nat) (B : List Bit) : (charactersOf n B).length = n := by simp [charactersOf]

theorem getElem?_charactersOf (n : Nat) (B : List Bit) {i : Nat} (h : i < n) :
    (charactersOf n B)[i]? = some (byte8 ((B.drop (8 * i)).take 8)) := by simp [charactersOf, h]

/-- `unpack` where a sentinel stands. -/
theorem unpack_of_some {B : List Bit} {j : Nat} (h : findSentinel B = some j) :
    unpack B = .ok (charactersOf (j / 8) B) := by rw [unpack, h]

/-- `unpack` where none does. -/
theorem unpack_of_none {B : List Bit} (h : findSentinel B = none) : unpack B = .error .sentinelNotFound := by
  rw [unpack, h]

/-- The bitstream memory after `storeBitstream`. -/
theorem bitsAt_storeBitstream (r : List Bit) (s : State) (k : Nat) :
    bitsAt (storeBitstream r s) k = (r[k]?).getD (bitsAt s k) := by
  simp [bitsAt, memory_read_writeAll]

/-- The bitstream after `storeBitstream` is the sequence stored. -/
@[simp] theorem bitstream_storeBitstream (r : List Bit) (s : State) : bitstream (storeBitstream r s) = r := by
  apply List.ext_getElem?
  intro k
  by_cases h : k < r.length
  · rw [getElem?_bitstream _ (by simpa using h), bitsAt_storeBitstream]; simp [h]
  · rw [getElem?_bitstream_of_ge _ (by simpa using h)]; simp; omega

/-- The message memory after `storeMessage`. -/
theorem msgAt_storeMessage (r : List Byte) (s : State) (i : Nat) :
    msgAt (storeMessage r s) i = ((r[i]?).map fun b => b.setWidth 32).getD (msgAt s i) := by
  simp [msgAt, memory_read_writeAll]

end Sys2Proof.Machine
end

