-- ==== Sys2Proof/Laws/Claims.lean ====
section
/-! SUPPORT. The vocabulary of the statements beside the model's own: a check of the model is the row of the spec's table,
an address is the spec's, a match is the search's. -/

namespace Sys2Proof.Claims

open Sys2Proof Sys2Proof.Machine

/-- The model's checks are the spec's table (60_exceptions.md R187). -/
theorem operandsOk_iff (i : Instr) (s : State) : operandsOk i s = true ↔ OperandsLegal i s := by
  cases i <;>
    simp only [operandsOk, OperandsLegal, Bool.and_eq_true, imageOk_iff, dimensionsOk_iff, chansOk_iff, imageFits_iff,
      messageFits_iff, bitstreamFits_iff, Dimensions, Channels, ImageInDepth, MessageInDepth, BitstreamInDepth,
      pixelCount, and_assoc]

theorem chans_ge {s : State} (h : Channels s) : 3 ≤ s.chans.toNat := by
  rcases h with h | h <;> rw [h] <;> decide

theorem carrier_eq (s : State) (k : Nat) : carrier s k = carrierAddr s k := rfl

theorem carriers_eq (s : State) : carriers s = 3 * pixelCount s := rfl

/-- A sentinel in the bitstream memory is the pattern in the bitstream. -/
theorem sentinelAt_iff (s : State) (j : Nat) : SentinelAt s j ↔ PatternAt (bitstream s) j := by
  constructor
  · rintro ⟨h1, h2, h3⟩
    exact ⟨fun u hu => by rw [getElem?_bitstream s (by omega), h2 u hu], by rw [getElem?_bitstream s (by omega), h3]⟩
  · rintro ⟨h1, h2⟩
    have hl : j + 16 ≤ s.blen := by
      obtain ⟨h, _⟩ := List.getElem?_eq_some_iff.mp h2
      simp only [length_bitstream] at h; omega
    refine ⟨hl, fun u hu => ?_, ?_⟩
    · have := h1 u hu; rw [getElem?_bitstream s (by omega)] at this; exact Option.some.inj this
    · rw [getElem?_bitstream s (by omega)] at h2; exact Option.some.inj h2

/-- The pattern at a position is sixteen bits equal to the sentinel. -/
theorem patternAt_iff (B : List Bit) (j : Nat) : PatternAt B j ↔ (B.drop j).take 16 = sentinelBits :=
  (match_iff B j).symm

theorem faultTaken_raiseFault (c : FaultCause) (s : State) : FaultTaken (causeCode c) s (raiseFault c s) :=
  ⟨rfl, by simp⟩

theorem ended_of_status {r : Result} {s t : State} (h : t.status = statusOfResult r s.status) :
    Ended (resultCode r) s t := by simp [Ended, h]

end Sys2Proof.Claims
end

