-- ==== Sys2Proof/Laws/PerInstr.lean ====
section
/-! SUPPORT. Laws of every command, one lemma per constructor: its word has format C (30_encoding.md R79). -/

namespace Sys2Proof.Laws.WordFormat

/-- The word of `i` is well formed: its `zero` field is 0 and its `op` field is `i`'s, which is not 0. -/
def Statement (i : Instr) : Prop :=
  wordWf (Sys2Proof.encode i) = true ∧ zeroField (Sys2Proof.encode i) = 0#5 ∧ opField (Sys2Proof.encode i) = opOf i

theorem chkcap : Statement .chkcap := ⟨rfl, rfl, rfl⟩

theorem pack : Statement .pack := ⟨rfl, rfl, rfl⟩

theorem unpack : Statement .unpack := ⟨rfl, rfl, rfl⟩

theorem embed : Statement .embed := ⟨rfl, rfl, rfl⟩

theorem extract : Statement .extract := ⟨rfl, rfl, rfl⟩

theorem encode : Statement .encode := ⟨rfl, rfl, rfl⟩

theorem decode : Statement .decode := ⟨rfl, rfl, rfl⟩

end Sys2Proof.Laws.WordFormat
end

