-- ==== Sys2Proof/Tests/Slice0.lean ====
section
/-! SUPPORT. The model's own tests. Part 1: checks that refuse, words, units and single steps; every expected result is
from spec/, its place named. Part 2: for every statement with hypotheses, concrete states that meet them, clause by
clause and at the ends of their ranges. -/

namespace Sys2Proof.Tests

open Sys2Proof Sys2Proof.Machine Sys2Proof.Claims

/-! Part 1. -/

/-! Well-formedness: what each check refuses. -/

theorem test_wordWf_refuses_zero_op : wordWf 0x00#8 = false := by decide
theorem test_wordWf_refuses_zero_field : wordWf 0x08#8 = false ∧ wordWf 0x86#8 = false := by decide
theorem test_params_refuse_no_width : Config.Params.wf { dimw := some 0, lenw := none, maxBits := none } = false := by
  decide
theorem test_params_refuse_small_bits : Config.Params.wf { dimw := none, lenw := none, maxBits := some 15 } = false := by
  decide
theorem test_params_refuse_short_length :
    Config.Params.wf { dimw := none, lenw := some 4, maxBits := some 16 } = false := by decide
theorem test_params_refuse_bounded_length_alone :
    Config.Params.wf { dimw := none, lenw := some 8, maxBits := none } = false := by decide
theorem test_params_accept : Config.Params.wf { dimw := some 1, lenw := some 5, maxBits := some 16 } = true
    ∧ Config.Params.unbounded.wf = true := by decide

/-! Words written out bit by bit from 30_encoding.md R80. -/

theorem test_decode_chkcap : decode 0b00000001#8 = .ok .chkcap := by decide
theorem test_decode_pack : decode 0b00000010#8 = .ok .pack := by decide
theorem test_decode_unpack : decode 0b00000011#8 = .ok .unpack := by decide
theorem test_decode_embed : decode 0b00000100#8 = .ok .embed := by decide
theorem test_decode_extract : decode 0b00000101#8 = .ok .extract := by decide
theorem test_decode_encode : decode 0b00000110#8 = .ok .encode := by decide
theorem test_decode_decode : decode 0b00000111#8 = .ok .decode := by decide
/-- 30_encoding.md R82. -/
theorem test_decode_illegal : decode 0x00#8 = .error .noSuchOp ∧ decode 0x08#8 = .error .zeroFieldSet
    ∧ decode 0xFF#8 = .error .zeroFieldSet := by decide
theorem test_decodeTableWord : decodeTableWord 8 6 = some .encode ∧ decodeTableWord 8 8 = none
    ∧ decodeTableWord 8 262 = none := by decide

/-! Units. -/

/-- A bit string as the vectors write it: first stream bit leftmost, most significant. -/
def stream (n : Nat) (v : BitVec n) : List Bit := (List.range n).map fun k => bitAt v (n - 1 - k)

/-- 41_pack_unpack.md R112: the first matches of two colliding messages. -/
theorem test_collision_positions :
    findSentinel (dataBits [0x41#32, 0x7F#32, 0xFF#32, 0x00#32] ++ sentinelBits) = some 9
      ∧ findSentinel (dataBits [0x01#32, 0xFF#32, 0xFC#32] ++ sentinelBits) = some 7
      ∧ findSentinel (dataBits [0xFF#32, 0xFC#32] ++ sentinelBits) = some 16 := by decide
/-- 41_pack_unpack.md R109: no match in fifteen 1s, a match not at a multiple of eight. -/
theorem test_search : findSentinel (stream 15 0b111111111111111#15) = none
    ∧ findSentinel (stream 17 0b01111111111111110#17) = some 1 := by decide
/-- 95_test_vectors.md V-INS. -/
theorem test_insPixel : insPixel [0xFE#8, 0x01#8, 0x80#8, 0x7F#8] [1#1, 0#1] 2 = [0xFF#8, 0x00#8, 0x80#8, 0x7F#8]
    ∧ insPixel [0xFE#8, 0x01#8, 0x80#8, 0x7F#8] [1#1, 0#1, 1#1] 3 = [0xFF#8, 0x00#8, 0x81#8, 0x7F#8] := by decide

/-! Single steps. -/

/-- What a next state shows, and nothing for a stop. -/
def seen {α : Type} (o : Host.Outcome State Fault Refusal) (f : State → α) : Option α :=
  match o with
  | .next t => some (f t)
  | .fault _ => none
  | .refused _ => none

/-- A core after reset with a geometry, an image and a message. -/
def core (w h : Nat) (c : BitVec 3) (image : List Byte) (text : List Char32) : State :=
  { State.reset with
    width := w, height := h, chans := c, img := Memory.writeAll [] 0 image, msg := Memory.writeAll [] 0 text,
    mlen := text.length }

/-- The same with a bitstream. -/
def withBits (B : List Bit) (s : State) : State := { s with bits := Memory.writeAll [] 0 B, blen := B.length }

/-- A core with bounded sizes: `MAXBITS` = 24, so `MAXMSG` = 1 and `MAXPIX` = 8. -/
def bounded (s : State) : State := { s with params := { dimw := some 4, lenw := some 5, maxBits := some 24 } }

/-- The host's transactions, the first one next. -/
def asked (l : List HostTxn) (s : State) : State := { s with host := l }

/-- The first `n` elements of a space. -/
def imgs (n : Nat) (t : State) : List Byte := (List.range n).map (imgAt t)
def msgs (n : Nat) (t : State) : List Char32 := (List.range n).map (msgAt t)
def bitss (n : Nat) (t : State) : List Bit := (List.range n).map (bitsAt t)

/-- 40_capacity.md R96: equal is OK, one bit over is not, and the product does not wrap at 32 bits. -/
theorem test_chkcap_boundary :
    seen (exec .chkcap { core 10 10 0#3 [] [] with blen := 300 }) (fun t => (t.capacity, t.status)) = some (300, 0x04#8)
    ∧ seen (exec .chkcap { core 10 10 0#3 [] [] with blen := 301 }) (fun t => (t.capacity, t.status))
      = some (300, 0x05#8) := by decide
theorem test_chkcap_no_wrap :
    seen (exec .chkcap (core 65535 65535 0#3 [] [])) (fun t => (t.capacity, t.status)) = some (12884508675, 0x04#8)
    ∧ seen (exec .chkcap (core 0 10 0#3 [] [])) (fun t => (t.capacity, t.status)) = some (0, 0xA0#8) := by decide
/-- 95_test_vectors.md V-PACK. -/
theorem test_pack_A : seen (exec .pack (core 0 0 0#3 [] [0x41#32])) (fun t => (t.blen, bitss 24 t, t.status))
    = some (24, stream 24 0b010000011111111111111110#24, 0x04#8) := by decide
theorem test_pack_illegal :
    seen (exec .pack { core 0 0 0#3 [] [0x48#32, 0x100#32] with blen := 5 }) (fun t => (t.blen, t.bits, t.status))
      = some (5, [], 0x06#8) := by decide
/-- 41_pack_unpack.md R109: one bit dropped, four bits behind the sentinel ignored. -/
theorem test_unpack_drops_a_bit :
    seen (exec .unpack (withBits (stream 29 0b01000001011111111111111101111#29) State.reset))
      (fun t => (t.mlen, msgs 1 t, t.status)) = some (1, [0x41#32], 0x04#8) := by decide
/-- 95_test_vectors.md V-UNPK: the last bit cut, the old message stays. -/
theorem test_unpack_stale :
    seen (exec .unpack (withBits (stream 31 0b0100100001101001111111111111111#31)
      (core 0 0 0#3 [] [1#32, 2#32, 3#32, 4#32, 5#32]))) (fun t => (t.mlen, msgs 5 t, t.status))
      = some (5, [1#32, 2#32, 3#32, 4#32, 5#32], 0x07#8) := by decide

/-- The image of 95_test_vectors.md V-EMB's RGBA rows. -/
def rgba : List Byte := [0x10#8, 0x21#8, 0x30#8, 0xAA#8, 0x41#8, 0x50#8, 0x61#8, 0x55#8]

/-- 95_test_vectors.md V-EMB. -/
theorem test_embed_rgba :
    seen (exec .embed (withBits [1#1, 0#1, 1#1, 1#1] (core 2 1 4#3 rgba []))) (fun t => (imgs 8 t, t.capacity, t.status))
      = some ([0x11#8, 0x20#8, 0x31#8, 0xAA#8, 0x41#8, 0x50#8, 0x61#8, 0x55#8], 6, 0x04#8) := by decide
theorem test_embed_too_long :
    seen (exec .embed (withBits [1#1, 1#1, 1#1, 1#1, 1#1, 1#1, 1#1] (core 2 1 4#3 rgba [])))
      (fun t => (imgs 8 t, t.capacity, t.status)) = some (rgba, 6, 0x05#8) := by decide
/-- 95_test_vectors.md V-EXT: the alpha bytes are skipped. -/
theorem test_extract_rgba :
    seen (exec .extract (core 2 1 4#3 [0x11#8, 0x20#8, 0x31#8, 0xFF#8, 0x41#8, 0x50#8, 0x61#8, 0x00#8] []))
      (fun t => (t.blen, bitss 6 t, t.status)) = some (6, [1#1, 0#1, 1#1, 1#1, 0#1, 1#1], 0x04#8) := by decide
theorem test_extract_one_pixel :
    seen (exec .extract (core 1 1 3#3 [0xFF#8, 0xFE#8, 0xFF#8] [])) (fun t => (t.blen, bitss 3 t, t.status))
      = some (3, [1#1, 0#1, 1#1], 0x04#8) := by decide

/-- 95_test_vectors.md P3's image: pixel `p` is `10+p, 20+p, 30+p, F0+p`. -/
def p3Image : List Byte := (List.range 8).flatMap fun p =>
  [BitVec.ofNat 8 (0x10 + p), BitVec.ofNat 8 (0x20 + p), BitVec.ofNat 8 (0x30 + p), BitVec.ofNat 8 (0xF0 + p)]

/-- 95_test_vectors.md P3: exact fit, alpha kept. -/
theorem test_encode_exact_fit :
    seen (exec .encode (core 4 2 4#3 p3Image [0x41#32])) (fun t => (t.blen, t.capacity, imgs 32 t, t.status))
      = some (24, 24,
        [0x10#8, 0x21#8, 0x30#8, 0xF0#8, 0x10#8, 0x20#8, 0x30#8, 0xF1#8, 0x12#8, 0x23#8, 0x33#8, 0xF2#8, 0x13#8, 0x23#8,
         0x33#8, 0xF3#8, 0x15#8, 0x25#8, 0x35#8, 0xF4#8, 0x15#8, 0x25#8, 0x35#8, 0xF5#8, 0x17#8, 0x27#8, 0x37#8, 0xF6#8,
         0x17#8, 0x27#8, 0x36#8, 0xF7#8], 0x04#8) := by decide
/-- 95_test_vectors.md V-ENC: an illegal character wins over a message too long. -/
theorem test_encode_priority :
    seen (exec .encode { core 1 1 3#3 [0xAA#8, 0xAA#8, 0xAA#8] [0x100#32] with blen := 7 })
      (fun t => (t.blen, t.capacity, imgs 3 t, t.status)) = some (7, 0, [0xAA#8, 0xAA#8, 0xAA#8], 0x06#8) := by decide

/-- Six RGB pixels whose least significant bits are a chance sentinel (44_properties.md R170, 95_test_vectors.md V-DEC). -/
def chance : List Byte := List.replicate 15 0x01#8 ++ [0x00#8, 0x00#8, 0x01#8]

/-- 95_test_vectors.md V-DEC. -/
theorem test_decode_chance_match :
    seen (exec .decode (core 6 1 3#3 chance [0x42#32])) (fun t => (t.blen, t.mlen, msgs 1 t, t.status))
      = some (18, 0, [0x42#32], 0x04#8) := by decide
theorem test_decode_five_pixels :
    seen (exec .decode (core 5 1 3#3 (List.replicate 15 0xFF#8) [0x42#32])) (fun t => (t.blen, t.mlen, t.status))
      = some (15, 1, 0x07#8) := by decide

/-! Steps of the host port (95_test_vectors.md V-FLT, 10_state.md R37). -/

theorem test_illegal_words : seen (step (asked [.regWrite 0 0x08] State.reset)) (·.status) = some 0x90#8
    ∧ seen (step (asked [.regWrite 0 0x86] State.reset)) (·.status) = some 0x90#8
    ∧ seen (step (asked [.regWrite 0 0x08] { State.reset with status := 0x04#8 })) (·.status) = some 0x94#8 := by decide
theorem test_ignored_while_faulted :
    seen (step (asked [.regWrite 0 0x02] { State.reset with status := 0x90#8 })) (fun t => (t.status, t.blen))
      = some (0x90#8, 0)
    ∧ seen (step (asked [.regWrite 0 0x09] { State.reset with status := 0xA0#8 })) (·.status) = some 0xA0#8 := by decide
theorem test_first_command_after_reset :
    seen (step (State.reset.withFetchWord 8 2)) (fun t => (t.blen, bitss 16 t, t.status))
      = some (16, sentinelBits, 0x04#8)
    ∧ seen (step (State.reset.withFetchWord 8 6)) (·.status) = some 0xA0#8 := by decide
theorem test_registers : seen (step (asked [.regRead 8] State.reset)) (·.reply) = some (some 0xFFFE)
    ∧ seen (step (asked [.regRead 0] State.reset)) (·.reply) = some (some 0)
    ∧ seen (step (asked [.regWrite 7 5] State.reset)) (·.capacity) = some 0
    ∧ seen (step (asked [.regWrite 4 4] State.reset)) (·.chans) = some 4#3 := by decide
theorem test_outside_the_interface : (step (asked [.regRead 9] State.reset) matches .refused .noSuchRegister)
    ∧ (step (asked [.regWrite 4 8] State.reset) matches .refused .valueTooWide)
    ∧ (step (asked [.memWrite .bits 24 1] (bounded State.reset)) matches .fault .noSuchAddress)
    ∧ (step (asked [.memRead .img 31] (bounded State.reset)) matches .next _) := by decide
theorem test_reset_keeps_memories :
    seen (step (asked [.reset] { core 4 2 4#3 [0x10#8] [] with status := 0x94#8 })) (fun t => (t.status, t.width, imgs 1 t))
      = some (0x00#8, 0, [0x10#8]) := by decide
theorem test_memory_form : Memory.wf (Memory.write (Memory.write ([] : Memory 8) 5 1#8) 3 2#8) = true
    ∧ Memory.wf ([(5, 1#8), (3, 2#8)] : Memory 8) = false := by decide

/-! Part 2. Named by the statement they witness. `hypotheses_` says that the listed states meet the hypotheses; where a
statement has clauses, one conjunct for each, in their order. -/

/-- A faulted core. -/
def faultedCore (s : State) : State := { s with status := 0x90#8 }

/-- The geometry, message length and bitstream length at the last value that `bounded` admits. -/
def brim : State := bounded { core 8 1 4#3 [] [] with mlen := 1, blen := 24 }

/-- A core whose bitstream or image is at hand for the statements on one state. -/
def packedA : State := withBits (stream 24 0b010000011111111111111110#24) (core 0 0 0#3 [] [0x42#32])

/-- The message 0xFF 0xFE in eleven RGB pixels: 33 carrying channels, 32 bits to hide. -/
def colliding : State := core 11 1 3#3 [] [0xFF#32, 0xFE#32]

/-- A message whose first match stands at bit 9 (41_pack_unpack.md R112), in sixteen pixels of four channels. -/
def collidingInside : State := core 16 1 4#3 [] [0x41#32, 0x7F#32, 0xFF#32, 0x00#32]

/-- A message that fills eight RGB pixels exactly. -/
def fullImage : State := core 8 1 3#3 [] [0x41#32]

theorem legal (i : Instr) (s : State) (h : operandsOk i s = true) : OperandsLegal i s := (operandsOk_iff i s).mp h

theorem illegal (i : Instr) (s : State) (h : operandsOk i s = false) : ¬OperandsLegal i s := fun g => by
  have := (operandsOk_iff i s).mpr g
  rw [h] at this
  exact Bool.noConfusion this

/-- A first match found by the search is one in the statements' words. -/
theorem first_match {s : State} {j : Nat} (h : findSentinel (bitstream s) = some j) : FirstSentinelAt s j := by
  obtain ⟨h1, h2⟩ := (findSentinel_eq_some_iff _ j).mp h
  exact ⟨(sentinelAt_iff s j).mpr ((patternAt_iff _ j).mpr h1),
    fun i hi g => h2 i hi ((patternAt_iff _ i).mp ((sentinelAt_iff s i).mp g))⟩

theorem no_match {s : State} (h : findSentinel (bitstream s) = none) : ∀ j, ¬SentinelAt s j := fun j g =>
  (findSentinel_eq_none_iff _).mp h j ((patternAt_iff _ j).mp ((sentinelAt_iff s j).mp g))

/-- Legal characters, checked one by one. -/
theorem legal_message {s : State} (h : (message s).all legalChar = true) : LegalMessage s := fun _ hi =>
  (all_legalChar_iff _).mp h _ (List.mem_of_getElem? (getElem?_message s hi))

theorem illegal_message {s : State} (i : Nat) (hi : i < s.mlen) (h : legalChar (msgAt s i) = false) : ¬LegalMessage s :=
  fun g => by
    rw [(legalChar_iff _).mpr (g i hi)] at h
    exact Bool.noConfusion h

/-- Too few carrying channels for a sentinel. -/
theorem no_image_match {s : State} (h : carriers s < 16) : ∀ j, ¬ImageSentinelAt s j := fun _ g => by
  have := g.1
  omega

/-- Too short a message for a match inside it. -/
theorem no_collision {s : State} (h : s.mlen < 2) : ∀ j, ¬CollisionAt s j := fun _ g => by
  have := g.1
  omega

theorem hypotheses_DecoderIsTheOpcodeMap : (∃ e, decode 0x08#8 = .error e) ∧ ∀ i, 0x08#8 ≠ commandWord i :=
  ⟨⟨_, rfl⟩, fun i => by cases i <;> decide⟩

theorem hypotheses_IllegalWordRaisesIllegalCommand :
    ((asked [.regWrite 0 0, .reset] State.reset).host = .regWrite 0 0 :: [.reset] ∧ (0 : Nat) < 256
      ∧ ((0 : Nat) = 0 ∨ 8 ≤ 0) ∧ faulted (asked [.regWrite 0 0, .reset] State.reset) = false)
    ∧ ((asked [.regWrite 0 8] brim).host = .regWrite 0 8 :: [] ∧ (8 = 0 ∨ 8 ≤ 8)
      ∧ faulted (asked [.regWrite 0 8] brim) = false)
    ∧ (asked [.regWrite 0 255] brim).host = .regWrite 0 255 :: [] ∧ 255 < 256 ∧ (255 = 0 ∨ 8 ≤ 255) := by decide

theorem hypotheses_StepRunsTheDecodedCommand :
    ((asked [.regWrite 0 1] fullImage).host = .regWrite 0 (0x01#8).toNat :: [] ∧ decode 0x01#8 = .ok .chkcap)
    ∧ ((asked [.regWrite 0 7] (faultedCore fullImage)).host = .regWrite 0 (0x07#8).toNat :: [] ∧ decode 0x07#8 = .ok .decode)
    ∧ State.reset.host = [] := by decide

theorem hypotheses_RegisterReadsReturn :
    ∀ n, n < 9 → (asked [.regRead n, .reset] fullImage).host = .regRead n :: [.reset] := fun _ _ => rfl

/-- The largest value of each register, with unbounded and with bounded sizes. -/
theorem hypotheses_HostRegisterWritesOnlyStore :
    (∀ n v, (asked [.regWrite n v] brim).host = .regWrite n v :: []) ∧ 255 < 256
    ∧ Fits brim.params.dimw 15 ∧ Fits fullImage.params.dimw (2 ^ 64) ∧ (7 : Nat) < 8
    ∧ Fits brim.params.lenw 31 ∧ Fits fullImage.params.lenw (2 ^ 64)
    ∧ (∀ d, brim.params.dimw = some d → 1023 < 2 ^ (2 * d + 2)) ∧ 65535 < 65536
    ∧ (asked [.regRead 0] brim).host = .regRead 0 :: [] := by
  refine ⟨fun _ _ => rfl, by decide, ?_, nofun, by decide, ?_, nofun, ?_, by decide, rfl⟩
  · rintro n ⟨⟩; decide
  · rintro n ⟨⟩; decide
  · rintro n ⟨⟩; decide

/-- A read of the last element of each space, then a write to it of the largest value. -/
theorem hypotheses_HostMemoryReadsWhatWasWritten :
    (∀ sp a, (asked [.memRead sp a] brim).host = .memRead sp a :: [])
    ∧ InInterface brim.params (.memRead .img 31) ∧ InInterface brim.params (.memRead .msg 0)
    ∧ InInterface brim.params (.memRead .bits 23) ∧ InInterface fullImage.params (.memRead .msg 1000000)
    ∧ (∀ sp a v, (asked [.memWrite sp a v, .memRead sp a] brim).host = .memWrite sp a v :: .memRead sp a :: [])
    ∧ InInterface brim.params (.memWrite .img 31 255) ∧ InInterface brim.params (.memWrite .msg 0 4294967295)
    ∧ InInterface brim.params (.memWrite .bits 23 1) ∧ InInterface fullImage.params (.memWrite .img 1000000 0) := by
  refine ⟨fun _ _ => rfl, ?_, ?_, ?_, nofun, fun _ _ _ => rfl, ⟨?_, by decide⟩, ⟨?_, by decide⟩, ⟨?_, by decide⟩, nofun,
    by decide⟩
  all_goals rintro b ⟨⟩; decide

/-- Inside and outside the interface, on both sides of each bound. -/
theorem hypotheses_StepAnswersExactlyTheInterface :
    (∀ t, (asked [t] brim).host = t :: [])
    ∧ InInterface brim.params (.regRead 8) ∧ ¬InInterface brim.params (.regRead 9)
    ∧ InInterface brim.params (.regWrite 4 7) ∧ ¬InInterface brim.params (.regWrite 4 8)
    ∧ InInterface brim.params (.memRead .bits 23) ∧ ¬InInterface brim.params (.memRead .bits 24)
    ∧ ¬InInterface brim.params (.memWrite .bits 23 2) := by
  refine ⟨fun _ => rfl, by simp [InInterface], by simp [InInterface], by simp [InInterface], by simp [InInterface], ?_,
    fun h => ?_, fun h => ?_⟩
  · rintro b ⟨⟩; decide
  · exact absurd (h 24 rfl) (by decide)
  · exact absurd h.2 (by decide)

theorem hypotheses_ResetClearsRegistersKeepsMemories :
    (asked [.reset] (faultedCore brim)).host = .reset :: []
    ∧ (asked [.reset, .regRead 8] (faultedCore brim)).host = .reset :: .regRead 8 :: [] := by decide

theorem hypotheses_EveryStepKeepsTheInvariant :
    (State.Inv State.reset ∧ ∃ t, step State.reset = .next t)
    ∧ (State.Inv (asked [.regWrite 0 6] brim) ∧ ∃ t, step (asked [.regWrite 0 6] brim) = .next t)
    ∧ State.Inv (asked [.memWrite .img 31 255] (faultedCore brim))
    ∧ ∃ t, step (asked [.memWrite .img 31 255] (faultedCore brim)) = .next t := by
  refine ⟨⟨?_, _, rfl⟩, ⟨?_, _, rfl⟩, ?_, _, rfl⟩ <;> constructor <;> decide

/-- A legal state at the end of every range for each command, and an illegal one for each row of the table. -/
theorem hypotheses_BadConfigIsTheCheckTable :
    faulted brim = false ∧ (∀ i, OperandsLegal i brim)
    ∧ (∀ i, i ≠ .pack → i ≠ .unpack → ¬OperandsLegal i { brim with width := 0 } ∧ ¬OperandsLegal i { brim with height := 0 })
    ∧ (∀ i, i = .embed ∨ i = .extract ∨ i = .encode ∨ i = .decode →
      ¬OperandsLegal i { brim with chans := 2#3 } ∧ ¬OperandsLegal i { brim with chans := 5#3 }
        ∧ ¬OperandsLegal i { brim with width := 9 })
    ∧ (∀ i, i = .pack ∨ i = .encode → ¬OperandsLegal i { brim with mlen := 2 })
    ∧ (∀ i, i = .chkcap ∨ i = .unpack ∨ i = .embed → ¬OperandsLegal i { brim with blen := 25 })
    ∧ State.reset.params.maxBits = none := by
  refine ⟨by decide, fun i => legal i _ (by cases i <;> decide), ?_, ?_, ?_, ?_, rfl⟩
  · intro i h1 h2
    exact ⟨illegal i _ (by cases i <;> first | decide | contradiction),
      illegal i _ (by cases i <;> first | decide | contradiction)⟩
  · rintro i (rfl | rfl | rfl | rfl) <;> exact ⟨illegal _ _ (by decide), illegal _ _ (by decide), illegal _ _ (by decide)⟩
  · rintro i (rfl | rfl) <;> exact illegal _ _ (by decide)
  · rintro i (rfl | rfl | rfl) <;> exact illegal _ _ (by decide)

theorem hypotheses_FaultEntryWritesOnlyTheFaultFields :
    (∃ t, step (asked [.regWrite 0 255] fullImage) = .next t ∧ faulted (asked [.regWrite 0 255] fullImage) = false
      ∧ faulted t = true)
    ∧ ∃ t, step (asked [.regWrite 0 1] State.reset) = .next t ∧ faulted (asked [.regWrite 0 1] State.reset) = false
      ∧ faulted t = true := by
  refine ⟨⟨_, rfl, ?_, ?_⟩, _, rfl, ?_, ?_⟩ <;> decide

/-- A command, a reset, and the other transactions, one of them outside the interface. -/
theorem hypotheses_FaultedCoreIgnoresCommands :
    (∀ txn, (asked [txn] (faultedCore brim)).host = txn :: [] ∧ faulted (asked [txn] (faultedCore brim)) = true)
    ∧ (0 : Nat) < 256 ∧ 255 < 256
    ∧ (HostTxn.regRead 5 ≠ .reset ∧ ∃ t, step (asked [.regRead 5] (faultedCore brim)) = .next t)
    ∧ (∀ w, HostTxn.memRead .bits 24 ≠ .regWrite 0 w) ∧ HostTxn.memRead .bits 24 ≠ .regRead 1
    ∧ HostTxn.memRead .bits 24 ≠ .reset := by
  refine ⟨fun _ => ⟨rfl, by simp [asked, faultedCore, faulted, faultField]⟩, by decide, by decide, ⟨by decide, _, rfl⟩, ?_, by decide, by decide⟩
  intro w h; cases h

theorem hypotheses_OnlyResetClearsFaultAndDone :
    let s := asked [.regWrite 0 2] { fullImage with status := 0x94#8 }
    (∃ t, step s = .next t) ∧ s.host.head? ≠ some .reset ∧ faulted s = true ∧ doneField s.status = true :=
  ⟨⟨_, rfl⟩, by decide, by decide, by decide⟩

/-- One write to `CMD` for each outcome: ignored, illegal word, illegal operand, illegal character (also where the message
is too long as well), too long by one bit, no sentinel, done. -/
theorem hypotheses_OutcomesInPriorityOrder :
    (∀ w s, (asked [.regWrite 0 w] s).host = .regWrite 0 w :: []) ∧ (2 = (commandWord .pack).toNat ∧ 2 < 256)
    ∧ faulted (faultedCore fullImage) = true
    ∧ (faulted fullImage = false ∧ ∀ i, 8 ≠ (commandWord i).toNat)
    ∧ (faulted State.reset = false ∧ ¬OperandsLegal .encode State.reset)
    ∧ (OperandsLegal .pack (core 0 0 0#3 [] [0x100#32]) ∧ BadCharacter .pack (core 0 0 0#3 [] [0x100#32]))
    ∧ (OperandsLegal .encode (core 1 1 3#3 [] [0x100#32]) ∧ BadCharacter .encode (core 1 1 3#3 [] [0x100#32])
      ∧ TooLong .encode (core 1 1 3#3 [] [0x100#32]))
    ∧ (OperandsLegal .embed { fullImage with blen := 25 } ∧ ¬BadCharacter .embed { fullImage with blen := 25 }
      ∧ TooLong .embed { fullImage with blen := 25 })
    ∧ (OperandsLegal .unpack (withBits [1#1] fullImage) ∧ NoSentinel .unpack (withBits [1#1] fullImage))
    ∧ (OperandsLegal .decode (core 5 1 3#3 [] []) ∧ NoSentinel .decode (core 5 1 3#3 [] []))
    ∧ OperandsLegal .chkcap { fullImage with blen := 24 } ∧ ¬BadCharacter .chkcap { fullImage with blen := 24 }
    ∧ ¬TooLong .chkcap { fullImage with blen := 24 } ∧ ¬NoSentinel .chkcap { fullImage with blen := 24 } := by
  refine ⟨fun _ _ => rfl, by decide, by decide, ⟨by decide, fun i => by cases i <;> decide⟩,
    ⟨by decide, illegal _ _ (by decide)⟩, ⟨legal _ _ (by decide), .inl rfl, ?_⟩,
    ⟨legal _ _ (by decide), ⟨.inr rfl, ?_⟩, .inr ⟨rfl, by decide⟩⟩,
    ⟨legal _ _ (by decide), ?_, .inl ⟨.inr rfl, by decide⟩⟩, ⟨legal _ _ (by decide), .inl ⟨rfl, no_match (by decide)⟩⟩,
    ⟨legal _ _ (by decide), .inr ⟨rfl, no_image_match (by decide)⟩⟩, legal _ _ (by decide), ?_, ?_, ?_⟩
  · intro h; exact absurd (h 0 (by decide)) (by decide)
  · intro h; exact absurd (h 0 (by decide)) (by decide)
  · rintro ⟨h | h, _⟩ <;> cases h
  · rintro ⟨h | h, _⟩ <;> cases h
  · rintro (⟨_, h⟩ | ⟨h, _⟩)
    · exact absurd h (by decide)
    · cases h
  · rintro (⟨h, _⟩ | ⟨h, _⟩) <;> cases h

theorem hypotheses_InserterReplacesBitZero :
    bitAt 0xFE#8 0 = 0#1 ∧ bitAt 0xFF#8 0 = 1#1 := by decide

theorem hypotheses_ExtractorReadsBitZero : bitAt 0x01#8 0 = bitAt 0xFF#8 0 := by decide

theorem hypotheses_ByteAndBitConversion : (stream 8 0b10000001#8).length = 8 := by decide

theorem hypotheses_PackedStreamFormat :
    (∃ c ∈ [0x48#32, 0x100#32], 255 < c.toNat) ∧ (∀ c ∈ [0x00#32, 0xFF#32], c.toNat ≤ 255)
    ∧ [0x00#32, 0xFF#32][1]? = some 0xFF#32 :=
  ⟨⟨0x100#32, by simp, by simp⟩, (all_legalChar_iff _).mp (by decide), rfl⟩

theorem hypotheses_SearchFindsTheFirstSentinel :
    findSentinel (0#1 :: sentinelBits ++ sentinelBits) = some 1 ∧ findSentinel (List.replicate 16 1#1) = none
    ∧ (List.replicate 15 (1#1 : Bit)).length < 16 := by decide

theorem hypotheses_UnpackerGroupsWholeCharacters :
    findSentinel (bits8 0x41#8 ++ 0#1 :: sentinelBits) = some 9 ∧ findSentinel (bits8 0xFF#8 ++ bits8 0xFF#8) = none
    ∧ ([0x41#8] : List Byte)[0]? = some 0x41#8 := by decide

theorem hypotheses_ExactlyWhichMessagesSurvive :
    (∀ c ∈ [0xFF#32, 0xFE#32], c.toNat ≤ 255) ∧ PatternAt (dataBits [0xFF#32, 0xFE#32]) 0
    ∧ (∀ c ∈ [0xFF#32], c.toNat ≤ 255) ∧ ∀ j, ¬PatternAt (dataBits [0xFF#32]) j := by
  refine ⟨(all_legalChar_iff _).mp (by decide), (patternAt_iff _ _).mpr (by decide), (all_legalChar_iff _).mp (by decide),
    fun j g => ?_⟩
  exact (findSentinel_eq_none_iff (dataBits [0xFF#32])).mp (by decide) j ((patternAt_iff _ j).mp g)

theorem hypotheses_UnpackUndoesPack :
    ((∀ c ∈ [0xFF#32], c.toNat ≤ 255) ∧ ∀ j, ¬PatternAt (dataBits [0xFF#32]) j)
    ∧ brim.params.wf = true ∧ fullImage.params.wf = true ∧ faulted fullImage = false ∧ OperandsLegal .pack fullImage
    ∧ LegalMessage fullImage ∧ (∀ j, ¬CollisionAt fullImage j)
    ∧ ∃ t, exec .pack fullImage = .next t ∧ SameBitstream t { t with msg := [], mlen := 0, img := [], status := 0x07#8 } := by
  refine ⟨⟨(all_legalChar_iff _).mp (by decide), fun j g => ?_⟩, by decide, by decide, by decide, legal _ _ (by decide),
    legal_message (by decide), no_collision (by decide), _, rfl, fun _ _ => rfl, rfl, rfl, by decide⟩
  exact (findSentinel_eq_none_iff (dataBits [0xFF#32])).mp (by decide) j ((patternAt_iff _ j).mp g)

theorem hypotheses_SevenBitMessagesSurvive : ∀ c ∈ [0x00#32, 0x7F#32, 0x7F#32], c.toNat < 0x80 := by simp

/-- `StartsGuarded` in the statements of the seven commands: a faulted core, and an illegal operand. -/
theorem hypotheses_StartsGuarded :
    faulted (faultedCore fullImage) = true
    ∧ ∀ i, ∃ s, faulted s = false ∧ ¬OperandsLegal i s := by
  refine ⟨by decide, fun i => ⟨{ brim with width := 0, mlen := 2, blen := 25 }, by decide, ?_⟩⟩
  exact illegal i _ (by cases i <;> decide)

theorem hypotheses_ChkcapComputesTheCapacity :
    (OperandsLegal .chkcap { fullImage with blen := 25 } ∧ 8 * 1 * 3 < 25)
    ∧ OperandsLegal .chkcap { fullImage with blen := 24 } ∧ 24 ≤ 8 * 1 * 3 :=
  ⟨⟨legal _ _ (by decide), by decide⟩, legal _ _ (by decide), by decide⟩

theorem legal_message_ff : LegalMessage (core 0 0 0#3 [] [0x00#32, 0xFF#32]) :=
  legal_message (by decide)

theorem illegal_message_100 : ¬LegalMessage (core 0 0 0#3 [] [0x00#32, 0x100#32]) :=
  illegal_message 1 (by decide) (by decide)

theorem hypotheses_PackWritesTheBitstream :
    (OperandsLegal .pack (core 0 0 0#3 [] [0x00#32, 0x100#32]) ∧ ¬LegalMessage (core 0 0 0#3 [] [0x00#32, 0x100#32]))
    ∧ OperandsLegal .pack (core 0 0 0#3 [] [0x00#32, 0xFF#32]) ∧ LegalMessage (core 0 0 0#3 [] [0x00#32, 0xFF#32]) :=
  ⟨⟨legal _ _ (by decide), illegal_message_100⟩, legal _ _ (by decide), legal_message_ff⟩

theorem hypotheses_UnpackRecoversTheMessage :
    faulted packedA = false ∧ OperandsLegal .unpack packedA ∧ FirstSentinelAt packedA 8
    ∧ OperandsLegal .unpack { packedA with blen := 23 } ∧ (∀ j, ¬SentinelAt { packedA with blen := 23 } j)
    ∧ OperandsLegal .unpack State.reset ∧ ∀ j, ¬SentinelAt State.reset j :=
  ⟨by decide, legal _ _ (by decide), first_match (by decide), legal _ _ (by decide), no_match (by decide),
    legal _ _ (by decide), no_match (by decide)⟩

theorem hypotheses_EmbedPlacesTheBitstream :
    (OperandsLegal .embed { fullImage with blen := 25 } ∧ carriers fullImage < 25)
    ∧ (OperandsLegal .embed { fullImage with blen := 24 } ∧ 24 ≤ carriers fullImage)
    ∧ OperandsLegal .embed { fullImage with blen := 0 } ∧ faulted fullImage = false :=
  ⟨⟨legal _ _ (by decide), by decide⟩, ⟨legal _ _ (by decide), by decide⟩, legal _ _ (by decide), by decide⟩

theorem hypotheses_ExtractReadsTheImage :
    (faulted fullImage = false ∧ OperandsLegal .extract fullImage) ∧ faulted brim = false ∧ OperandsLegal .extract brim :=
  ⟨⟨by decide, legal _ _ (by decide)⟩, by decide, legal _ _ (by decide)⟩

/-- An illegal character, one pixel too few, an exact fit. -/
theorem hypotheses_EncodeHidesTheMessage :
    (OperandsLegal .encode (core 8 1 3#3 [] [0x100#32]) ∧ ¬LegalMessage (core 8 1 3#3 [] [0x100#32]))
    ∧ (OperandsLegal .encode (core 7 1 3#3 [] [0xFF#32]) ∧ LegalMessage (core 7 1 3#3 [] [0xFF#32])
      ∧ carriers (core 7 1 3#3 [] [0xFF#32]) < 8 * 1 + 16)
    ∧ OperandsLegal .encode fullImage ∧ LegalMessage fullImage ∧ 8 * fullImage.mlen + 16 ≤ carriers fullImage ∧ faulted fullImage = false := by
  exact ⟨⟨legal _ _ (by decide), illegal_message 0 (by decide) (by decide)⟩,
    ⟨legal _ _ (by decide), legal_message (by decide), by decide⟩, legal _ _ (by decide), legal_message (by decide),
    by decide, by decide⟩

/-- The state DECODE's clauses speak of is the one after the walk: with and without a match. -/
theorem hypotheses_DecodeRecoversTheMessage :
    (OperandsLegal .decode (core 6 1 3#3 chance []) ∧ ∃ t, exec .decode (core 6 1 3#3 chance []) = .next t
      ∧ FirstSentinelAt t 0)
    ∧ OperandsLegal .decode (core 5 1 3#3 (List.replicate 15 0xFF#8) [])
    ∧ ∃ t, exec .decode (core 5 1 3#3 (List.replicate 15 0xFF#8) []) = .next t ∧ ∀ j, ¬SentinelAt t j :=
  ⟨⟨legal _ _ (by decide), _, rfl, first_match (by decide)⟩, legal _ _ (by decide), _, rfl, no_match (by decide)⟩

/-- A pixel whose third channel gets no bit, its alpha channel, and an embedding that ends inside a pixel. -/
theorem hypotheses_EmbedInsertsPixelByPixel :
    (2 ≤ ([1#1, 0#1] : List Bit).length ∧ ([0xFE#8, 0x01#8, 0x80#8, 0x7F#8] : List Byte)[1]? = some 0x01#8 ∧ 1 < 3
      ∧ 1 < 2 ∧ ([1#1, 0#1] : List Bit)[1]? = some 0#1)
    ∧ (([0xFE#8, 0x01#8, 0x80#8, 0x7F#8] : List Byte)[2]? = some 0x80#8 ∧ (3 ≤ 2 ∨ 2 ≤ 2))
    ∧ (([0xFE#8, 0x01#8, 0x80#8, 0x7F#8] : List Byte)[3]? = some 0x7F#8 ∧ (3 ≤ 3 ∨ 2 ≤ 3))
    ∧ OperandsLegal .embed { fullImage with blen := 4 } ∧ 4 ≤ carriers fullImage ∧ 7 < fullImage.width * fullImage.height :=
  ⟨by decide, by decide, by decide, legal _ _ (by decide), by decide, by decide⟩

theorem hypotheses_ExtractReadsPixelByPixel :
    faulted brim = false ∧ OperandsLegal .extract brim ∧ 7 < brim.width * brim.height :=
  ⟨by decide, legal _ _ (by decide), by decide⟩

/-- PACK succeeding and failing. -/
theorem hypotheses_EncodeEqualsPackThenEmbed :
    (fullImage.params.wf = true ∧ faulted fullImage = false ∧ OperandsLegal .encode fullImage
      ∧ ∃ t, exec .pack fullImage = .next t ∧ resultField t.status = 0#2)
    ∧ OperandsLegal .encode (core 8 1 3#3 [] [0x100#32]) ∧ brim.params.wf = true
    ∧ ∃ t, exec .pack (core 8 1 3#3 [] [0x100#32]) = .next t ∧ resultField t.status ≠ 0#2 :=
  ⟨⟨by decide, by decide, legal _ _ (by decide), _, rfl, by decide⟩, legal _ _ (by decide), by decide, _, rfl, by decide⟩

theorem hypotheses_DecodeEqualsExtractThenUnpack :
    faulted brim = false ∧ OperandsLegal .decode brim := ⟨by decide, legal _ _ (by decide)⟩

/-- After a successful ENCODE or EMBED: the image alone is kept, everything else of the second core differs. -/
def receiver (t : State) : State := { t with msg := [], mlen := 0, bits := [], blen := 0, capacity := 0, status := 0x07#8 }

theorem sameImage_receiver (t : State) : SameImage t (receiver t) := ⟨fun _ => rfl, rfl, rfl, rfl, rfl, by simp [receiver, faulted, faultField]⟩

theorem hypotheses_ExtractReturnsWhatWasEmbedded :
    (∃ t, exec .encode fullImage = .next t ∧ faulted fullImage = false ∧ faulted t = false ∧ resultField t.status = 0#2
      ∧ SameImage t (receiver t))
    ∧ ∃ t, exec .embed (withBits [1#1, 0#1] (core 1 1 4#3 [] [])) = .next t ∧ faulted t = false
      ∧ resultField t.status = 0#2 ∧ SameImage t t ∧ t.blen < carriers t :=
  ⟨⟨_, rfl, by decide, by decide, by decide, sameImage_receiver _⟩,
    _, rfl, by decide, by decide, ⟨fun _ => rfl, rfl, rfl, rfl, rfl, by decide⟩, by decide⟩

/-- An exact fit; the empty message in six pixels. -/
theorem hypotheses_DecodeRecoversWhatEncodeHid :
    (faulted fullImage = false ∧ OperandsLegal .encode fullImage ∧ LegalMessage fullImage ∧ (∀ j, ¬CollisionAt fullImage j)
      ∧ 8 * fullImage.mlen + 16 ≤ carriers fullImage ∧ ∃ t, exec .encode fullImage = .next t ∧ SameImage t (receiver t))
    ∧ OperandsLegal .encode (core 6 1 4#3 [] []) ∧ LegalMessage (core 6 1 4#3 [] [])
    ∧ (∀ j, ¬CollisionAt (core 6 1 4#3 [] []) j) ∧ 8 * 0 + 16 ≤ carriers (core 6 1 4#3 [] []) := by
  exact ⟨⟨by decide, legal _ _ (by decide), legal_message (by decide), no_collision (by decide), by decide, _, rfl,
      sameImage_receiver _⟩,
    legal _ _ (by decide), legal_message (by decide), no_collision (by decide), by decide⟩

/-- A match at bit 0, and one inside a message at a bit that is no multiple of eight. -/
theorem hypotheses_CollidingMessageComesBackTruncated :
    (faulted colliding = false ∧ OperandsLegal .encode colliding ∧ LegalMessage colliding ∧ CollisionAt colliding 0
      ∧ 8 * colliding.mlen + 16 ≤ carriers colliding ∧ ∃ t, exec .encode colliding = .next t ∧ SameImage t (receiver t))
    ∧ faulted collidingInside = false ∧ OperandsLegal .encode collidingInside ∧ LegalMessage collidingInside
    ∧ CollisionAt collidingInside 9 ∧ (∀ i, i < 9 → ¬CollisionAt collidingInside i)
    ∧ 8 * collidingInside.mlen + 16 ≤ carriers collidingInside := by
  refine ⟨⟨by decide, legal _ _ (by decide), legal_message (by decide), ?_, by decide, _, rfl, sameImage_receiver _⟩,
    by decide, legal _ _ (by decide), legal_message (by decide), ?_, ?_, by decide⟩ <;> unfold CollisionAt <;> decide

/-- At the boundary and one pixel below it. -/
theorem hypotheses_CapacityBoundaryIsExact :
    (faulted fullImage = false ∧ OperandsLegal .encode fullImage ∧ LegalMessage fullImage ∧ 8 * fullImage.mlen + 16 = carriers fullImage)
    ∧ OperandsLegal .encode (core 7 1 3#3 [] [0xFF#32]) ∧ LegalMessage (core 7 1 3#3 [] [0xFF#32]) := by
  exact ⟨⟨by decide, legal _ _ (by decide), legal_message (by decide), by decide⟩, legal _ _ (by decide),
    legal_message (by decide)⟩

theorem hypotheses_AlphaIsPreserved : brim.chans = 4#3 ∧ 7 < brim.width * brim.height := by decide

/-- EMBED of four bits reaches pixel 1 and there its first channel alone; with no bit it reaches nothing. -/
theorem hypotheses_UnreachedPixelsAreIdentical :
    ∃ t, exec .embed (withBits [1#1, 0#1, 1#1, 1#1] (core 3 1 4#3 [] [])) = .next t
      ∧ ((t.blen - 1) / 3 < 2 ∧ 2 < 3 * 1 ∧ 3 < (4#3 : BitVec 3).toNat) ∧ (1 = (t.blen - 1) / 3 ∧ t.blen ≤ 3 * 1 + 1)
      ∧ ∃ u, exec .embed (core 3 1 4#3 [] []) = .next u ∧ u.blen = 0 :=
  ⟨_, rfl, by decide, by decide, _, rfl, by decide⟩

/-- An EMBED that moves a channel value up and another down. -/
theorem hypotheses_ImageChangesByAtMostOne :
    (Instr.embed = .embed ∨ Instr.embed = .encode) ∧ (Instr.encode = .embed ∨ Instr.encode = .encode)
    ∧ seen (exec .embed (withBits [1#1, 0#1] (core 1 1 3#3 [0x00#8, 0xFF#8] []))) (imgs 2) = some [0x01#8, 0xFE#8] := by
  decide

theorem hypotheses_CommandsWriteOnlyTheirOutputs :
    (Instr.encode ≠ .unpack ∧ Instr.encode ≠ .decode) ∧ (Instr.embed = .chkcap ∨ Instr.embed = .unpack ∨ Instr.embed = .embed)
    ∧ (Instr.decode ≠ .chkcap ∧ Instr.decode ≠ .embed ∧ Instr.decode ≠ .encode) := by decide

/-- Each error result and a fault of ENCODE and EMBED. -/
theorem hypotheses_ErrorsChangeNoImage :
    (∃ t, exec .encode (core 7 1 3#3 [] [0x41#32]) = .next t ∧ resultField t.status = 1#2)
    ∧ (∃ t, exec .encode (core 7 1 3#3 [] [0x100#32]) = .next t ∧ resultField t.status = 2#2)
    ∧ (∃ t, exec .embed { fullImage with blen := 25 } = .next t ∧ resultField t.status = 1#2)
    ∧ ∃ t, exec .embed { fullImage with chans := 5#3 } = .next t ∧ faulted t = true :=
  ⟨⟨_, rfl, by decide⟩, ⟨_, rfl, by decide⟩, ⟨_, rfl, by decide⟩, _, rfl, by decide⟩

/-- An image with the chance sentinel of the rule, six pixels; the one with too few channels has none. -/
theorem hypotheses_DecodeOfAnyImageNeverFaults :
    let s := core 6 1 3#3 chance []
    faulted s = false ∧ OperandsLegal .decode s ∧ s.width * s.height = 6 ∧ (∀ k, k < 15 → lsb s k = 1#1) ∧ lsb s 15 = 0#1
      ∧ ∀ j, ¬ImageSentinelAt (core 5 1 3#3 [] []) j :=
  ⟨by decide, legal _ _ (by decide), by decide, by decide, by decide, no_image_match (by decide)⟩

/-- With the exact depth of a hundred pixels as well. -/
theorem hypotheses_HiScenario :
    let s := core 10 10 3#3 [] [0x48#32, 0x69#32]
    (faulted s = false ∧ s.width = 10 ∧ s.height = 10 ∧ s.chans = 3#3 ∧ s.mlen = 2 ∧ msgAt s 0 = 0x48#32
      ∧ msgAt s 1 = 0x69#32 ∧ ImageInDepth s ∧ MessageInDepth s)
    ∧ ImageInDepth { s with params := { dimw := some 4, lenw := some 9, maxBits := some 300 } }
    ∧ MessageInDepth { s with params := { dimw := some 4, lenw := some 9, maxBits := some 300 } }
    ∧ ∀ t, SameImage t (receiver t) := by
  refine ⟨⟨by decide, rfl, rfl, rfl, rfl, by decide, by decide, nofun, nofun⟩, ?_, ?_, sameImage_receiver⟩
  · rintro b ⟨⟩; decide
  · rintro b ⟨⟩; decide

/-- Ninety-five characters, in three and in four channels. -/
theorem hypotheses_NinetyFiveCharactersDoNotFit :
    let s := core 10 10 3#3 [] (List.replicate 95 0x78#32)
    (faulted s = false ∧ s.width = 10 ∧ s.height = 10 ∧ Channels s ∧ s.mlen = 95 ∧ LegalMessage s ∧ ImageInDepth s
      ∧ MessageInDepth s)
    ∧ Channels { s with chans := 4#3 } := by
  exact ⟨⟨by decide, rfl, rfl, .inl rfl, by decide, legal_message (by decide), nofun, nofun⟩, .inr rfl⟩

/-- Two images that differ in bits 7 to 1 and in alpha, and two that differ in the first and the last carrying bit. -/
theorem hypotheses_OnlyCarryingBitsReachTheDecoder :
    let s := core 2 1 4#3 rgba []
    let s' := core 2 1 4#3 [0xF0#8, 0x01#8, 0xFE#8, 0x00#8, 0xFF#8, 0x00#8, 0x01#8, 0xFF#8] []
    let s'' := core 2 1 4#3 [0x11#8, 0x21#8, 0x30#8, 0xAA#8, 0x41#8, 0x50#8, 0x60#8, 0x55#8] []
    faulted s = false ∧ faulted s' = false ∧ OperandsLegal .decode s ∧ s'.width = s.width ∧ s'.height = s.height
      ∧ s'.chans = s.chans ∧ s'.params = s.params ∧ (∀ k, k < carriers s → lsb s' k = lsb s k)
      ∧ lsb s'' 0 ≠ lsb s 0 ∧ lsb s'' 5 ≠ lsb s 5 ∧ 5 < carriers s :=
  ⟨by decide, by decide, legal _ _ (by decide), rfl, rfl, rfl, rfl, by decide, by decide, by decide, by decide⟩

theorem hypotheses_EmbeddingTwiceIsEmbeddingOnce :
    let s := withBits [1#1, 0#1, 1#1] (core 1 1 4#3 [] [])
    faulted s = false ∧ ∃ t, exec .embed s = .next t ∧ faulted t = false ∧ resultField t.status = 0#2 :=
  ⟨by decide, _, rfl, by decide, by decide⟩

/-- The second message is the empty one, over an image that carries "A". -/
theorem hypotheses_ReEncodingKeepsOrReplaces :
    faulted fullImage = false ∧ ∃ t, exec .encode fullImage = .next t ∧ faulted t = false ∧ resultField t.status = 0#2
      ∧ SameImage t (receiver t) ∧ MessageInDepth (receiver t) ∧ LegalMessage (receiver t)
      ∧ (∀ j, ¬CollisionAt (receiver t) j) ∧ 8 * (receiver t).mlen + 16 ≤ carriers (receiver t) :=
  ⟨by decide, _, rfl, by decide, by decide, sameImage_receiver _, nofun, legal_message (by decide),
    no_collision (by decide), by decide⟩

theorem hypotheses_RecoveredMessagesPack :
    (∃ t, exec .unpack packedA = .next t ∧ faulted packedA = false ∧ faulted t = false ∧ resultField t.status = 0#2)
    ∧ ∃ t, exec .decode (core 6 1 3#3 chance []) = .next t ∧ faulted t = false ∧ resultField t.status = 0#2 :=
  ⟨⟨_, rfl, by decide, by decide, by decide⟩, _, rfl, by decide, by decide⟩

end Sys2Proof.Tests
end

section
/-! Bytes and bits (00_scope.md R12): a bit as a number, a byte as the weighed sum of its bits, and both round trips. -/

namespace Sys2Proof.Machine

/-- A bit of a word, as a binary digit of the word's number. -/
theorem toNat_bitAt {n : Nat} (v : BitVec n) (i : Nat) : (bitAt v i).toNat = v.toNat / 2 ^ i % 2 := by
  rw [bitAt, BitVec.toNat_ofBool, BitVec.getLsbD, Nat.toNat_testBit]

/-- The weighed sum of eight bits fits a byte, so `byte8` loses nothing of it. -/
theorem toNat_byte8 (t0 t1 t2 t3 t4 t5 t6 t7 : Bit) :
    (byte8 [t0, t1, t2, t3, t4, t5, t6, t7]).toNat
      = t0.toNat * 128 + t1.toNat * 64 + t2.toNat * 32 + t3.toNat * 16 + t4.toNat * 8 + t5.toNat * 4
        + t6.toNat * 2 + t7.toNat := by
  exact Nat.mod_eq_of_lt (by simp only [List.getD_cons_zero, List.getD_cons_succ]; omega)

/-- A byte is the weighed sum of its own bits. -/
@[simp] theorem byte8_bits8 (b : Byte) : byte8 (bits8 b) = b := by
  apply BitVec.eq_of_toNat_eq
  rw [bits8, toNat_byte8]
  simp only [toNat_bitAt]
  omega

/-- Each of eight bits is the binary digit that its weight selects from their sum. -/
theorem bits8_byte8 {t : List Bit} (h : t.length = 8) : bits8 (byte8 t) = t := by
  match t, h with
  | [t0, t1, t2, t3, t4, t5, t6, t7], _ =>
    simp only [bits8, List.cons.injEq, and_true, ← BitVec.toNat_inj, toNat_bitAt, toNat_byte8]
    omega

end Sys2Proof.Machine

namespace Sys2Proof.Proofs

open Sys2Proof.Machine

/-- Settles O21: `bits8` is the list by definition; the sum and the two round trips are the lemmas above. -/
theorem byteAndBitConversion : Obligations.ByteAndBitConversion :=
  ⟨fun _ => rfl, toNat_byte8, byte8_bits8, fun _ => bits8_byte8⟩

end Sys2Proof.Proofs
end

section
/-! The register port (10_state.md R21, R37): what one step does that performs a `RegWrite` other than a command's, or a
`RegRead`. -/

namespace Sys2Proof.Machine

open Sys2Proof.Claims

/-- The register file does not depend on the transaction list and the reply. -/
theorem readReg_taken (n : Nat) (s : State) (rest : List HostTxn) : readReg n (taken s rest) = readReg n s := rfl

/-- A `RegRead` of a register returns its value and changes nothing else. -/
theorem step_of_regRead {s : State} {n v : Nat} {rest : List HostTxn} (h : s.host = .regRead n :: rest)
    (hv : readReg n s = some v) : step s = .next { s with host := rest, reply := some v } := by
  have hv' : readReg n (taken s rest) = some v := by rw [readReg_taken, hv]
  calc step s = regRead n (taken s rest) := step_of_pending h
    _ = .next { s with host := rest, reply := some v } := by rw [regRead, hv']; rfl

/-- A `RegWrite` of a value of the register's width, to a register other than `CMD`, is one `writeReg`. -/
theorem step_of_regWrite {s : State} {n v : Nat} {w : Option Nat} {rest : List HostTxn}
    (h : s.host = .regWrite n v :: rest) (hn : n ≠ 0) (hw : regWidth s.params n = some w) (hv : Fits w v) :
    step s = .next (writeReg n v (taken s rest)) := by
  have hw' : regWidth (taken s rest).params n = some w := hw
  calc step s = regWrite n v (taken s rest) := step_of_pending h
    _ = .next (writeReg n v (taken s rest)) := by
      simp only [regWrite, hw', (fitsWidth_iff w v).2 hv, if_true, if_neg hn]

/-- A bounded width of `n` bits holds the values below `2 ^ n`. -/
theorem fits_some {n v : Nat} (h : v < 2 ^ n) : Fits (some n) v := by
  rintro _ ⟨⟩
  exact h

/-- `CAPACITY` is `2*DIMW + 2` bits wide (10_state.md R27), and unbounded when `DIMW` is. -/
theorem fits_capacityWidth {P : Config.Params} {v : Nat} (h : ∀ d, P.dimw = some d → v < 2 ^ (2 * d + 2)) :
    Fits (capacityWidth P) v := by
  intro n hn
  obtain ⟨d, hd, rfl⟩ := Option.map_eq_some_iff.1 hn
  exact h d hd

end Sys2Proof.Machine

namespace Sys2Proof.Proofs

open Sys2Proof.Machine Sys2Proof.Claims

/-- Settles O7: a write of a value that fits is one `writeReg`, whose row of R37's table is the next state. -/
theorem hostRegisterWritesOnlyStore : Obligations.HostRegisterWritesOnlyStore := by
  refine ⟨fun s n v rest h => ⟨?status, ?width, ?height, ?chans, ?mlen, ?blen, ?capacity, ?sentinel⟩,
    fun s rest h => step_of_regRead h rfl⟩
  case status => rintro rfl hv; exact step_of_regWrite h (by decide) rfl (fits_some hv)
  case width => rintro rfl hv; exact step_of_regWrite h (by decide) rfl hv
  case height => rintro rfl hv; exact step_of_regWrite h (by decide) rfl hv
  case chans => rintro rfl hv; exact step_of_regWrite h (by decide) rfl (fits_some hv)
  case mlen => rintro rfl hv; exact step_of_regWrite h (by decide) rfl hv
  case blen => rintro rfl hv; exact step_of_regWrite h (by decide) rfl hv
  case capacity => rintro rfl hv; exact step_of_regWrite h (by decide) rfl (fits_capacityWidth hv)
  case sentinel => rintro rfl hv; exact step_of_regWrite h (by decide) rfl (fits_some hv)

end Sys2Proof.Proofs
end

section
/-! The command decoder (30_encoding.md R79, R80, R82): a word is its two fields, and the words that decode are exactly
those of the opcode map. -/

namespace Sys2Proof.Claims

/-- Format C: the fields `zero` and `op` are all of a command word. -/
theorem zeroField_append_opField (w : Byte) : zeroField w ++ opField w = w :=
  (BitVec.extractLsb'_append_extractLsb'_eq_extractLsb' rfl).trans BitVec.extractLsb'_eq_self

/-- A word is the encoding of `i` exactly when `zero` is 0 and `op` is that of `i`. -/
theorem eq_encode_iff (w : Byte) (i : Instr) : w = encode i ↔ zeroField w = 0#5 ∧ opField w = opOf i := by
  constructor
  · rintro rfl
    cases i <;> exact ⟨rfl, rfl⟩
  · rintro ⟨hz, ho⟩
    rw [← zeroField_append_opField w, hz, ho, encode]

/-- The rows of the opcode map, read in both directions. -/
theorem decodeOp_eq_ok_iff (op : BitVec 3) (i : Instr) : decodeOp op.toNat = .ok i ↔ op = opOf i := by
  revert op
  cases i <;> decide

/-- The encoder writes the opcode map's word. -/
theorem encode_eq_commandWord (i : Instr) : encode i = commandWord i := by cases i <;> rfl

/-- The words that decode to `i`: the one word of its row. -/
theorem decode_eq_ok_iff (w : Byte) (i : Instr) : decode w = .ok i ↔ w = commandWord i := by
  rw [← encode_eq_commandWord, eq_encode_iff, ← decodeOp_eq_ok_iff, decode]
  by_cases hz : zeroField w = 0#5
  · rw [if_pos hz, and_iff_right hz]
  · rw [if_neg hz]
    exact ⟨nofun, fun h => absurd h.1 hz⟩

/-- The words that decode to nothing: those of no row. -/
theorem decode_error_iff (w : Byte) : (∃ e, decode w = .error e) ↔ ∀ i, w ≠ commandWord i := by
  simp only [ne_eq, ← decode_eq_ok_iff]
  cases decode w with
  | error e => exact ⟨fun _ => nofun, fun _ => ⟨e, rfl⟩⟩
  | ok i => exact ⟨nofun, fun h => absurd rfl (h i)⟩

/-- The opcode map uses the numbers 1 to 7. -/
theorem commandWord_bounds (i : Instr) : 1 ≤ (commandWord i).toNat ∧ (commandWord i).toNat ≤ 7 := by
  cases i <;> decide

end Sys2Proof.Claims

namespace Sys2Proof.Proofs

open Sys2Proof.Claims

/-- Settles O1: a word is its two fields, `zero` must be 0, and `op` is read off the map's rows. -/
theorem decoderIsTheOpcodeMap : Obligations.DecoderIsTheOpcodeMap := ⟨decode_eq_ok_iff, decode_error_iff⟩

end Sys2Proof.Proofs
end

section
/-! Illegal command words (30_encoding.md R82, 60_exceptions.md R186): a write of one to `CMD` is fault entry. -/

namespace Sys2Proof.Claims

open Sys2Proof.Machine

/-- The command port on a word that does not decode. -/
theorem command_of_error {w : Byte} {e : DecodeError} {s : State} (hf : faulted s = false) (hd : decode w = .error e) :
    command w s = .next (raiseFault .illegalCommand s) := by
  rw [command, if_neg (by simp [hf]), hd]

/-- A step that writes a word of no row of the opcode map to `CMD`. -/
theorem step_of_illegalWord {s : State} {w : Nat} {rest : List HostTxn} (h : s.host = .regWrite 0 w :: rest)
    (hw : w < 256) (hi : ∀ i, w ≠ (commandWord i).toNat) (hf : faulted s = false) :
    step s = .next (raiseFault .illegalCommand (taken s rest)) := by
  have hword : ∀ i, BitVec.ofNat 8 w ≠ commandWord i := fun i hc =>
    hi i (by rw [← hc, BitVec.toNat_ofNat, Nat.mod_eq_of_lt hw])
  obtain ⟨e, hd⟩ := (decode_error_iff _).mpr hword
  calc step s = transact (.regWrite 0 w) (taken s rest) := step_of_pending h
    _ = command (BitVec.ofNat 8 w) (taken s rest) := transact_command hw _
    _ = .next (raiseFault .illegalCommand (taken s rest)) := command_of_error hf hd

end Sys2Proof.Claims

namespace Sys2Proof.Proofs

open Sys2Proof.Machine Sys2Proof.Claims

/-- Of the words 0 to 7 the first is illegal, and so are all the 248 words behind them. -/
theorem count_illegalWords : ((List.range 256).filter fun w => w == 0 || 8 ≤ w).length = 249 := by
  have hsplit : List.range 256 = List.range 8 ++ (List.range 248).map (8 + ·) := List.range_add (n := 8) (m := 248)
  have hrest : ((List.range 248).map (8 + ·)).filter (fun w => w == 0 || 8 ≤ w) = (List.range 248).map (8 + ·) :=
    List.filter_eq_self.mpr (by simp)
  rw [hsplit, List.filter_append, hrest, List.length_append, List.length_map, List.length_range]
  rfl

/-- Settles O4: the words 0 and 8 to 255 stand in no row of the map, so the step is an `IllegalCommand` fault entry. -/
theorem illegalWordRaisesIllegalCommand : Obligations.IllegalWordRaisesIllegalCommand := by
  refine ⟨fun s w rest h hw hill hf => ?_, count_illegalWords⟩
  have hi : ∀ i, w ≠ (commandWord i).toNat := fun i => by
    have := commandWord_bounds i
    omega
  exact ⟨_, step_of_illegalWord h hw hi hf, faultTaken_raiseFault .illegalCommand _⟩

end Sys2Proof.Proofs
end

section
/-! The packer's stream (30_encoding.md R70, R72, 41_pack_unpack.md R100): data bits, then one sentinel. -/

namespace Sys2Proof.Machine

/-- The sentinel in stream order: fifteen 1s (30_encoding.md R73). -/
theorem getElem?_sentinelBits_of_lt : ∀ {t : Nat}, t < 15 → sentinelBits[t]? = some 1#1 := by decide

/-- In a packed stream the data bits stand first. -/
theorem getElem?_packed_data {M : List Char32} {i : Nat} {c : Char32} (h : M[i]? = some c) {t : Nat} (ht : t < 8) :
    (dataBits M ++ sentinelBits)[8 * i + t]? = some (bitAt c (7 - t)) := by
  have hi : i < M.length := (List.getElem?_eq_some_iff.mp h).1
  rw [List.getElem?_append_left (by rw [length_dataBits]; omega), getElem?_dataBits h ht]

/-- In a packed stream the sentinel stands behind the data bits. -/
theorem getElem?_packed_sentinel (M : List Char32) (t : Nat) :
    (dataBits M ++ sentinelBits)[8 * M.length + t]? = sentinelBits[t]? := by
  rw [List.getElem?_append_right (by simp), length_dataBits, Nat.add_sub_cancel_left]

end Sys2Proof.Machine

namespace Sys2Proof.Proofs

open Sys2Proof.Machine

/-- Settles O23: a legal message's stream is its data bits and the sentinel, each read at its own offset. -/
theorem packedStreamFormat : Obligations.PackedStreamFormat := by
  refine fun M => ⟨fun ⟨c, hc, hbig⟩ => pack_of_illegal hc hbig, fun hlegal => ?_⟩
  refine ⟨_, pack_of_legal hlegal, ?length, fun i c h t ht => getElem?_packed_data h ht, fun t ht => ?ones, ?zero⟩
  case length => simp
  case ones => rw [getElem?_packed_sentinel, getElem?_sentinelBits_of_lt ht]
  case zero => rw [getElem?_packed_sentinel]; rfl

end Sys2Proof.Proofs
end

section
/-! How every command starts (60_exceptions.md R187, R189), in the statements' terms. -/

namespace Sys2Proof.Claims

open Sys2Proof.Machine

/-- The model's checks refuse exactly the operands that are not legal. -/
theorem operandsOk_eq_false_iff (i : Instr) (s : State) : operandsOk i s = false ↔ ¬OperandsLegal i s := by
  rw [← operandsOk_iff, Bool.not_eq_true]

/-- No command does anything on a faulted core, and every command checks its operands first. -/
theorem startsGuarded (i : Instr) (s : State) : StartsGuarded i s :=
  ⟨exec_of_faulted, fun hf hill =>
    ⟨_, exec_of_bad hf ((operandsOk_eq_false_iff i s).mpr hill), faultTaken_raiseFault .badConfig s⟩⟩

/-- A command on legal operands is its effect. -/
theorem exec_of_legal {i : Instr} {s : State} (hf : faulted s = false) (h : OperandsLegal i s) :
    exec i s = .next (effectOf i s) :=
  exec_of_ok hf ((operandsOk_iff i s).mpr h)

end Sys2Proof.Claims
end

section
/-! The capacity check (40_capacity.md R90 to R92): the register it writes, and which of the two results it ends with. -/

namespace Sys2Proof.Machine

/-- The result of the capacity check (40_capacity.md R92). -/
def chkcapResult (s : State) : Result := if capacityExceeded s then .capacityExceeded else .ok

/-- CHKCAP writes the capacity whichever result it ends with (40_capacity.md R91). -/
theorem chkcapEffect_eq (s : State) : chkcapEffect s = finish (chkcapResult s) (writeCapacity s) := by
  rw [chkcapEffect, chkcapResult]
  split <;> rfl

theorem chkcapResult_of_lt {s : State} (h : s.width * s.height * 3 < s.blen) : chkcapResult s = .capacityExceeded :=
  if_pos ((capacityExceeded_iff s).mpr h)

theorem chkcapResult_of_le {s : State} (h : s.blen ≤ s.width * s.height * 3) : chkcapResult s = .ok :=
  if_neg fun hx => Nat.not_lt.mpr h ((capacityExceeded_iff s).mp hx)

end Sys2Proof.Machine

namespace Sys2Proof.Proofs

open Sys2Proof.Machine Sys2Proof.Claims

/-- Settles O29: CHKCAP ends with the check's result on the state that holds the capacity, and the comparison of `BLEN`
with the capacity decides that result. -/
theorem chkcapComputesTheCapacity : Obligations.ChkcapComputesTheCapacity := by
  refine fun s => ⟨startsGuarded .chkcap s, fun hf hlegal => ?_⟩
  have hexec : exec .chkcap s = .next (finish (chkcapResult s) (writeCapacity s)) := by
    rw [exec_of_legal hf hlegal, effectOf, chkcapEffect_eq]
  have hended : Ended (resultCode (chkcapResult s)) s (finish (chkcapResult s) (writeCapacity s)) := ended_of_status rfl
  refine ⟨_, hexec, rfl, fun hover => ?exceeded, fun hfits => ?ok⟩
  case exceeded => rwa [chkcapResult_of_lt hover] at hended ⊢
  case ok => rwa [chkcapResult_of_le hfits] at hended ⊢

end Sys2Proof.Proofs
end

section
/-! The sentinel search in the statements' words (41_pack_unpack.md R104): a match, the first match, and none. -/

namespace Sys2Proof.Claims

open Sys2Proof.Machine

/-- A match lies whole inside the bitstream. -/
theorem PatternAt.le_length {B : List Bit} {j : Nat} (h : PatternAt B j) : j + 16 ≤ B.length := by
  obtain ⟨hlt, -⟩ := List.getElem?_eq_some_iff.mp h.2
  omega

/-- The search gives the smallest match. -/
theorem findSentinel_eq_some_iff_patternAt (B : List Bit) (j : Nat) :
    findSentinel B = some j ↔ PatternAt B j ∧ ∀ i, i < j → ¬PatternAt B i := by
  simp only [patternAt_iff, findSentinel_eq_some_iff]

/-- The search gives `none` exactly when nothing matches. -/
theorem findSentinel_eq_none_iff_patternAt (B : List Bit) : findSentinel B = none ↔ ∀ j, ¬PatternAt B j := by
  simp only [patternAt_iff, findSentinel_eq_none_iff]

/-- What the search finds lies whole inside the bitstream. -/
theorem le_length_of_findSentinel {B : List Bit} {j : Nat} (h : findSentinel B = some j) : j + 16 ≤ B.length :=
  ((findSentinel_eq_some_iff_patternAt B j).mp h).1.le_length

/-- The first sentinel of the bitstream memory is what the search finds in the bitstream. -/
theorem firstSentinelAt_iff (s : State) (j : Nat) : FirstSentinelAt s j ↔ findSentinel (bitstream s) = some j := by
  simp only [FirstSentinelAt, sentinelAt_iff, findSentinel_eq_some_iff_patternAt]

/-- The bitstream memory has no sentinel exactly when the search finds none in the bitstream. -/
theorem no_sentinelAt_iff (s : State) : (∀ j, ¬SentinelAt s j) ↔ findSentinel (bitstream s) = none := by
  simp only [sentinelAt_iff, findSentinel_eq_none_iff_patternAt]

end Sys2Proof.Claims

namespace Sys2Proof.Proofs

open Sys2Proof.Machine Sys2Proof.Claims

/-- Settles O24: the search's two equivalences, and a match takes sixteen bits. -/
theorem searchFindsTheFirstSentinel : Obligations.SearchFindsTheFirstSentinel := by
  refine fun B => ⟨findSentinel_eq_some_iff_patternAt B, findSentinel_eq_none_iff_patternAt B, fun hshort => ?_⟩
  refine (findSentinel_eq_none_iff_patternAt B).mpr fun j hj => ?_
  have := hj.le_length
  omega

end Sys2Proof.Proofs
end

section
/-! The unpacker's characters (41_pack_unpack.md R105), bit by bit. -/

namespace Sys2Proof.Machine

/-- A character keeps the eight bits it is made of, provided the bitstream has them. -/
theorem getElem?_of_charactersOf {n : Nat} {B : List Bit} (hn : 8 * n ≤ B.length) {i : Nat} {b : Byte}
    (h : (charactersOf n B)[i]? = some b) {t : Nat} (ht : t < 8) : B[8 * i + t]? = some (bitAt b (7 - t)) := by
  have hi : i < n := by
    obtain ⟨hlt, -⟩ := List.getElem?_eq_some_iff.mp h
    rwa [length_charactersOf] at hlt
  obtain rfl : byte8 ((B.drop (8 * i)).take 8) = b := Option.some.inj ((getElem?_charactersOf n B hi).symm.trans h)
  have hlen : ((B.drop (8 * i)).take 8).length = 8 := by
    rw [List.length_take, List.length_drop]
    omega
  rw [← getElem?_bits8 _ ht, bits8_byte8 hlen, List.getElem?_take_of_lt ht, List.getElem?_drop]

end Sys2Proof.Machine

namespace Sys2Proof.Proofs

open Sys2Proof.Machine Sys2Proof.Claims

/-- Settles O25: the whole characters before the match lie inside the bitstream, so each keeps its eight bits. -/
theorem unpackerGroupsWholeCharacters : Obligations.UnpackerGroupsWholeCharacters := by
  refine fun B => ⟨unpack_of_none, fun j hj => ⟨_, unpack_of_some hj, length_charactersOf _ _, fun i b hb t ht => ?_⟩⟩
  have hinside : 8 * (j / 8) ≤ B.length := by
    have := le_length_of_findSentinel hj
    omega
  exact getElem?_of_charactersOf hinside hb ht

end Sys2Proof.Proofs
end

section
/-! Packing, then unpacking with any bits behind (41_pack_unpack.md R111). No match begins in the data bits and ends behind
them: its last bit, a 0, would fall on one of the sentinel's 1s. So the first match is the first one inside the data bits
or else the appended sentinel itself, and every character before it comes back. -/

namespace Sys2Proof.Claims

open Sys2Proof.Machine

/-- Bits behind a match do not matter to it. -/
theorem patternAt_append_iff {B : List Bit} {j : Nat} (h : j + 16 ≤ B.length) (T : List Bit) :
    PatternAt (B ++ T) j ↔ PatternAt B j := by
  rw [patternAt_iff, patternAt_iff, List.drop_append_of_le_length (by omega),
    List.take_append_of_le_length (by rw [List.length_drop]; omega)]

/-- The appended sentinel is read behind the data bits, whatever follows it. -/
theorem getElem?_packed_append_sentinel (M : List Char32) (T : List Bit) {t : Nat} (ht : t < 16) :
    (dataBits M ++ sentinelBits ++ T)[8 * M.length + t]? = sentinelBits[t]? := by
  rw [List.getElem?_append_left (by simpa using ht), getElem?_packed_sentinel]

/-- The appended sentinel is a match. -/
theorem patternAt_packed_append_end (M : List Char32) (T : List Bit) :
    PatternAt (dataBits M ++ sentinelBits ++ T) (8 * M.length) := by
  constructor
  · intro t ht
    rw [getElem?_packed_append_sentinel M T (by omega), getElem?_sentinelBits_of_lt ht]
  · rw [getElem?_packed_append_sentinel M T (by decide)]
    rfl

/-- Every match before the appended sentinel lies inside the data bits. -/
theorem patternAt_packed_append_iff {M : List Char32} {j : Nat} (hj : j < 8 * M.length) (T : List Bit) :
    PatternAt (dataBits M ++ sentinelBits ++ T) j ↔ PatternAt (dataBits M) j := by
  by_cases hin : j + 16 ≤ 8 * M.length
  · rw [List.append_assoc]
    exact patternAt_append_iff (by rwa [length_dataBits]) _
  · refine ⟨fun h => ?straddles, fun h => absurd h.le_length (by rwa [length_dataBits])⟩
    case straddles =>
      have hpos : j + 15 = 8 * M.length + (j + 15 - 8 * M.length) := by omega
      have hone : (dataBits M ++ sentinelBits ++ T)[j + 15]? = some 1#1 := by
        rw [hpos, getElem?_packed_append_sentinel M T (by omega), getElem?_sentinelBits_of_lt (by omega)]
      exact absurd (hone.symm.trans h.2) (by decide)

/-- Where the unpacker cuts a packed message: at the first match inside the data bits, or else at their end. -/
def cutPosition (M : List Char32) : Nat := (findSentinel (dataBits M)).getD (8 * M.length)

theorem cutPosition_of_none {M : List Char32} (h : findSentinel (dataBits M) = none) : cutPosition M = 8 * M.length := by
  rw [cutPosition, h, Option.getD_none]

theorem cutPosition_of_some {M : List Char32} {j : Nat} (h : findSentinel (dataBits M) = some j) :
    cutPosition M = j := by
  rw [cutPosition, h, Option.getD_some]

/-- A match inside the data bits ends inside them and leaves out at least one whole character. -/
theorem le_of_findSentinel_dataBits {M : List Char32} {j : Nat} (h : findSentinel (dataBits M) = some j) :
    j + 16 ≤ 8 * M.length ∧ j / 8 < M.length := by
  have := le_length_of_findSentinel h
  rw [length_dataBits] at this
  omega

/-- The cut spares every whole character exactly when nothing inside the data bits matches. -/
theorem length_le_cutPosition_div_iff (M : List Char32) :
    M.length ≤ cutPosition M / 8 ↔ findSentinel (dataBits M) = none := by
  cases hf : findSentinel (dataBits M) with
  | none => simp [cutPosition_of_none hf]
  | some j =>
    rw [cutPosition_of_some hf]
    exact ⟨fun h => absurd h (Nat.not_le.mpr (le_of_findSentinel_dataBits hf).2), nofun⟩

theorem cutPosition_le (M : List Char32) : cutPosition M ≤ 8 * M.length := by
  cases hf : findSentinel (dataBits M) with
  | none => rw [cutPosition_of_none hf]
  | some j =>
    have := (le_of_findSentinel_dataBits hf).1
    rw [cutPosition_of_some hf]
    omega

/-- The first match in a packed stream is where the message is cut. -/
theorem findSentinel_packed_append (M : List Char32) (T : List Bit) :
    findSentinel (dataBits M ++ sentinelBits ++ T) = some (cutPosition M) := by
  rw [findSentinel_eq_some_iff_patternAt]
  cases hf : findSentinel (dataBits M) with
  | none =>
    have hno := (findSentinel_eq_none_iff_patternAt _).mp hf
    rw [cutPosition_of_none hf]
    exact ⟨patternAt_packed_append_end M T, fun i hi h => hno i ((patternAt_packed_append_iff hi T).mp h)⟩
  | some j =>
    obtain ⟨hat, hfirst⟩ := (findSentinel_eq_some_iff_patternAt _ j).mp hf
    have hj : j < 8 * M.length := by
      have := (le_of_findSentinel_dataBits hf).1
      omega
    rw [cutPosition_of_some hf]
    exact ⟨(patternAt_packed_append_iff hj T).mpr hat, fun i hi h =>
      hfirst i hi ((patternAt_packed_append_iff (Nat.lt_trans hi hj) T).mp h)⟩

/-- The run of eight at character `i` of the data bits is that character's byte. -/
theorem take_drop_dataBits {M : List Char32} {i : Nat} {c : Char32} (h : M[i]? = some c) (T : List Bit) :
    ((dataBits M ++ T).drop (8 * i)).take 8 = bits8 (c.setWidth 8) := by
  induction M generalizing i with
  | nil => simp at h
  | cons d M ih =>
    rw [dataBits_cons, List.append_assoc]
    cases i with
    | zero =>
      obtain rfl : d = c := by simpa using h
      exact List.take_left' (length_bits8 _)
    | succ i =>
      have hdrop : 8 * (i + 1) = (bits8 (d.setWidth 8)).length + 8 * i := by rw [length_bits8]; omega
      rw [hdrop, List.drop_length_add_append]
      exact ih (by simpa using h)

/-- The whole characters at the start of a stream that begins with a message's data bits are the message's. -/
theorem charactersOf_dataBits_append {M : List Char32} {n : Nat} (hn : n ≤ M.length) (T : List Bit) :
    charactersOf n (dataBits M ++ T) = (M.map fun c => c.setWidth 8).take n := by
  apply List.ext_getElem?
  intro i
  by_cases hi : i < n
  · have hM : M[i]? = some (M[i]'(by omega)) := List.getElem?_eq_getElem _
    rw [getElem?_charactersOf n _ hi, take_drop_dataBits hM, byte8_bits8, List.getElem?_take_of_lt hi,
      List.getElem?_map, hM]
    rfl
  · rw [List.getElem?_eq_none (by rw [length_charactersOf]; omega),
      List.getElem?_eq_none (by rw [List.length_take]; omega)]

/-- Unpacking a packed message gives its whole characters before the cut. -/
theorem unpack_packed_append (M : List Char32) (T : List Bit) :
    unpack (dataBits M ++ sentinelBits ++ T) = .ok ((M.map fun c => c.setWidth 8).take (cutPosition M / 8)) := by
  have hle : cutPosition M / 8 ≤ M.length := by
    have := cutPosition_le M
    omega
  rw [unpack_of_some (findSentinel_packed_append M T), List.append_assoc, charactersOf_dataBits_append hle]

/-- The first match stands at the end of the data bits exactly when nothing inside them matches. -/
theorem findSentinel_packed_append_eq_end_iff (M : List Char32) (T : List Bit) :
    (∀ j, ¬PatternAt (dataBits M) j) ↔ findSentinel (dataBits M ++ sentinelBits ++ T) = some (8 * M.length) := by
  have hle := cutPosition_le M
  rw [← findSentinel_eq_none_iff_patternAt, ← length_le_cutPosition_div_iff, findSentinel_packed_append,
    Option.some.injEq]
  omega

/-- A message comes back whole exactly when nothing inside its data bits matches. -/
theorem unpack_packed_append_eq_map_iff (M : List Char32) (T : List Bit) :
    (∀ j, ¬PatternAt (dataBits M) j)
      ↔ unpack (dataBits M ++ sentinelBits ++ T) = .ok (M.map fun c => c.setWidth 8) := by
  rw [← findSentinel_eq_none_iff_patternAt, ← length_le_cutPosition_div_iff, unpack_packed_append, Except.ok.injEq,
    List.take_eq_self_iff, List.length_map]

end Sys2Proof.Claims

namespace Sys2Proof.Proofs

open Sys2Proof.Machine Sys2Proof.Claims

/-- Settles O26: the first match of the packed stream is the first one inside the data bits or else their end, which
decides both equivalences and what a colliding message is cut to. -/
theorem exactlyWhichMessagesSurvive : Obligations.ExactlyWhichMessagesSurvive := by
  refine ⟨fun M T hlegal => ⟨_, pack_of_legal hlegal, findSentinel_packed_append_eq_end_iff M T,
    unpack_packed_append_eq_map_iff M T, fun j hat hfirst => ?collides⟩, by decide⟩
  case collides =>
    have hf : findSentinel (dataBits M) = some j := (findSentinel_eq_some_iff_patternAt _ j).mpr ⟨hat, hfirst⟩
    obtain ⟨hend, hchars⟩ := le_of_findSentinel_dataBits hf
    exact ⟨hend, hchars, by rw [unpack_packed_append, cutPosition_of_some hf]⟩

end Sys2Proof.Proofs
end

section
/-! PACK (41_pack_unpack.md R101, R102): its two outcomes as whole next states, and the bitstream it leaves in `BITS`. -/

namespace Sys2Proof.Claims

open Sys2Proof.Machine

/-- The packer's validity check reads exactly the message's elements of `MSG`. -/
theorem legalMessage_iff (s : State) : LegalMessage s ↔ ∀ c ∈ message s, c.toNat ≤ 255 := by
  simp [LegalMessage, message]

/-- PACK of a legal message stores the data bits and the sentinel. -/
theorem packEffect_of_legal {s : State} (h : LegalMessage s) :
    packEffect s = finish .ok (storeBitstream (dataBits (message s) ++ sentinelBits) s) := by
  rw [packEffect, pack_of_legal ((legalMessage_iff s).mp h)]

/-- PACK of an illegal message only ends with its result. -/
theorem packEffect_of_illegal {s : State} (h : ¬LegalMessage s) : packEffect s = finish .invalidCharacter s := by
  obtain ⟨c, hc, hbig⟩ : ∃ c ∈ message s, 255 < c.toNat := by simpa [legalMessage_iff] using h
  rw [packEffect, pack_of_illegal hc hbig]

/-- Stored data bits are the message's, and the sentinel and the old elements stand behind them. -/
theorem holdsPacked_storeBitstream (s : State) :
    HoldsPacked s (storeBitstream (dataBits (message s) ++ sentinelBits) s) := by
  have hsentinel : ∀ u, u < 16 → bitsAt (storeBitstream (dataBits (message s) ++ sentinelBits) s) (8 * s.mlen + u)
      = (sentinelBits[u]?).getD (bitsAt s (8 * s.mlen + u)) := fun u hu => by
    rw [bitsAt_storeBitstream, ← length_message s, getElem?_packed_sentinel]
  refine ⟨fun i u hi hu => ?data, fun u hu => ?ones, ?zero, fun k hk => ?beyond⟩
  case data => rw [bitsAt_storeBitstream, getElem?_packed_data (getElem?_message s hi) hu, Option.getD_some]
  case ones => rw [hsentinel u (by omega), getElem?_sentinelBits_of_lt hu, Option.getD_some]
  case zero => rw [hsentinel 15 (by decide)]; rfl
  case beyond => rw [bitsAt_storeBitstream, List.getElem?_eq_none (by simpa using hk), Option.getD_none]

end Sys2Proof.Claims

namespace Sys2Proof.Proofs

open Sys2Proof.Machine Sys2Proof.Claims

/-- Settles O30: the message's legality decides between PACK's two next states. -/
theorem packWritesTheBitstream : Obligations.PackWritesTheBitstream := by
  refine fun s => ⟨startsGuarded .pack s, fun hf hlegal =>
    ⟨_, exec_of_legal hf hlegal, fun hbad => ?invalid, fun hgood => ?ok⟩⟩
  case invalid =>
    rw [effectOf, packEffect_of_illegal hbad]
    exact ⟨rfl, ended_of_status (r := .invalidCharacter) rfl⟩
  case ok =>
    have hlen : (dataBits (message s) ++ sentinelBits).length = 8 * s.mlen + 16 := by simp
    rw [effectOf, packEffect_of_legal hgood, ← hlen]
    exact ⟨rfl, holdsPacked_storeBitstream s, ended_of_status (r := .ok) rfl⟩

end Sys2Proof.Proofs
end

section
/-! UNPACK (41_pack_unpack.md R107, R108): its two outcomes as whole next states, and the message it leaves in `MSG`. -/

namespace Sys2Proof.Claims

open Sys2Proof.Machine

/-- UNPACK of a bitstream without a sentinel only ends with its result. -/
theorem unpackEffect_of_none {s : State} (h : findSentinel (bitstream s) = none) :
    unpackEffect s = finish .sentinelNotFound s := by
  rw [unpackEffect, unpack_of_none h]

/-- UNPACK stores the whole characters before the first sentinel. -/
theorem unpackEffect_of_some {s : State} {j : Nat} (h : findSentinel (bitstream s) = some j) :
    unpackEffect s = finish .ok (storeMessage (charactersOf (j / 8) (bitstream s)) s) := by
  rw [unpackEffect, unpack_of_some h]

/-- Zero extension to `CPW` bits keeps a byte's bits (41_pack_unpack.md R107). -/
theorem bitAt_setWidth_char (b : Byte) {i : Nat} (h : i < 8) : bitAt (b.setWidth 32) i = bitAt b i := by
  simp [bitAt, show i < 32 by omega]

/-- Stored characters are the bitstream's runs of eight before bit `j`, and the old elements stand behind them. -/
theorem holdsRecovered_storeMessage {s : State} {j : Nat} (hj : j ≤ s.blen) :
    HoldsRecovered s s (storeMessage (charactersOf (j / 8) (bitstream s)) s) j := by
  refine ⟨length_charactersOf _ _, fun i hi => ?character, fun i hi => ?beyond⟩
  case character =>
    obtain ⟨b, hb⟩ : ∃ b, (charactersOf (j / 8) (bitstream s))[i]? = some b := ⟨_, getElem?_charactersOf _ _ hi⟩
    have hmsg : msgAt (storeMessage (charactersOf (j / 8) (bitstream s)) s) i = b.setWidth 32 := by
      rw [msgAt_storeMessage, hb, Option.map_some, Option.getD_some]
    rw [hmsg]
    refine ⟨by rw [BitVec.toNat_setWidth]; omega, fun u hu => ?_⟩
    have hstream := getElem?_of_charactersOf (by rw [length_bitstream]; omega) hb hu
    rw [getElem?_bitstream s (by omega)] at hstream
    rw [bitAt_setWidth_char b (by omega), Option.some.inj hstream]
  case beyond =>
    rw [msgAt_storeMessage, List.getElem?_eq_none (by rwa [length_charactersOf]), Option.map_none, Option.getD_none]

end Sys2Proof.Claims

namespace Sys2Proof.Proofs

open Sys2Proof.Machine Sys2Proof.Claims

/-- Settles O31: what the search finds in the bitstream decides between UNPACK's two next states. -/
theorem unpackRecoversTheMessage : Obligations.UnpackRecoversTheMessage := by
  refine fun s => ⟨startsGuarded .unpack s, fun hf hlegal =>
    ⟨_, exec_of_legal hf hlegal, fun hno => ?none, fun j hfirst => ?some⟩⟩
  case none =>
    rw [effectOf, unpackEffect_of_none ((no_sentinelAt_iff s).mp hno)]
    exact ⟨rfl, ended_of_status (r := .sentinelNotFound) rfl⟩
  case some =>
    have hj : j ≤ s.blen := by
      have := hfirst.1.1
      omega
    rw [effectOf, unpackEffect_of_some ((firstSentinelAt_iff s j).mp hfirst)]
    exact ⟨rfl, holdsRecovered_storeMessage hj, ended_of_status (r := .ok) rfl⟩

end Sys2Proof.Proofs
end

section
/-! The channel inserter (42_insert_encode.md R120), in numbers: it keeps the channel value's half and replaces its
parity, so it neither carries into bit 1 nor wraps. -/

namespace Sys2Proof.Machine

/-- The inserter keeps the upper seven bits and puts the bit below them. -/
theorem insCh_eq_append (v : Byte) (b : Bit) : insCh v b = v.extractLsb' 1 7 ++ b := by
  refine BitVec.eq_of_getLsbD_eq fun i hi => ?_
  rw [BitVec.getLsbD_append, BitVec.getLsbD_extractLsb']
  match i, hi with
  | 0, _ | 1, _ | 2, _ | 3, _ | 4, _ | 5, _ | 6, _ | 7, _ => simp [insCh]

/-- Bits 7 to 1 are the value's half. -/
theorem toNat_extract_upper (v : Byte) : (v.extractLsb' 1 7).toNat = v.toNat / 2 := by
  rw [BitVec.extractLsb'_toNat, Nat.shiftRight_eq_div_pow]
  omega

/-- The value's half is kept and the bit is the new parity. -/
theorem toNat_insCh (v : Byte) (b : Bit) : (insCh v b).toNat = 2 * (v.toNat / 2) + b.toNat := by
  rw [insCh_eq_append, BitVec.toNat_append, ← Nat.shiftLeft_add_eq_or_of_lt b.isLt, Nat.shiftLeft_eq,
    toNat_extract_upper]
  omega

/-- Bits 7 to 1 are kept. -/
theorem extract_upper_insCh (v : Byte) (b : Bit) : (insCh v b).extractLsb' 1 7 = v.extractLsb' 1 7 := by
  apply BitVec.eq_of_toNat_eq
  rw [toNat_extract_upper, toNat_extract_upper, toNat_insCh]
  omega

/-- Bit 0 is the value's parity. -/
theorem toNat_bitAt_zero {n : Nat} (v : BitVec n) : (bitAt v 0).toNat = v.toNat % 2 := by
  rw [toNat_bitAt, Nat.pow_zero, Nat.div_one]

/-- Bit 0 is the inserted bit. -/
@[simp] theorem bitAt_insCh (v : Byte) (b : Bit) : bitAt (insCh v b) 0 = b := by
  apply BitVec.eq_of_toNat_eq
  rw [toNat_bitAt_zero, toNat_insCh]
  omega

/-- Inserting the bit that stands there already changes nothing. -/
@[simp] theorem insCh_bitAt (v : Byte) : insCh v (bitAt v 0) = v := by
  apply BitVec.eq_of_toNat_eq
  rw [toNat_insCh, toNat_bitAt_zero]
  omega

/-- Setting a clear bit 0 adds one. -/
theorem toNat_insCh_one {v : Byte} (h : bitAt v 0 = 0#1) : (insCh v 1#1).toNat = v.toNat + 1 := by
  have heven : v.toNat % 2 = 0 := by rw [← toNat_bitAt_zero, h]; rfl
  rw [toNat_insCh, show (1#1 : Bit).toNat = 1 from rfl]
  omega

/-- Clearing a set bit 0 subtracts one. -/
theorem toNat_insCh_zero {v : Byte} (h : bitAt v 0 = 1#1) : (insCh v 0#1).toNat + 1 = v.toNat := by
  have hodd : v.toNat % 2 = 1 := by rw [← toNat_bitAt_zero, h]; rfl
  rw [toNat_insCh, show (0#1 : Bit).toNat = 0 from rfl]
  omega

end Sys2Proof.Machine

namespace Sys2Proof.Proofs

open Sys2Proof.Machine

/-- Settles O19: the inserter's half and parity give what is kept, what is replaced and the step of 1; the corners are
evaluated. -/
theorem inserterReplacesBitZero : Obligations.InserterReplacesBitZero := by
  refine ⟨fun _ _ => rfl, fun v b => ⟨extract_upper_insCh v b, bitAt_insCh v b⟩,
    fun v b => ⟨?same, ?up, ?down⟩, by decide⟩
  case same => rintro rfl; exact insCh_bitAt v
  case up => rintro hclear rfl; exact toNat_insCh_one hclear
  case down => rintro hset rfl; exact toNat_insCh_zero hset

end Sys2Proof.Proofs
end

section
/-! EMBED (42_insert_encode.md R126): its two outcomes as whole next states, and the bitstream it leaves in the image. -/

namespace Sys2Proof.Claims

open Sys2Proof.Machine

/-- The capacity register's value in the statements' words (40_capacity.md R90). -/
theorem writeCapacity_eq (s : State) : writeCapacity s = { s with capacity := carriers s } := by
  rw [carriers, Nat.mul_comm]
  rfl

theorem capacityExceeded_iff_carriers (s : State) : capacityExceeded s = true ↔ carriers s < s.blen := by
  rw [capacityExceeded_iff, carriers, Nat.mul_comm]

/-- EMBED of a bitstream above the capacity only writes the capacity and ends with its result. -/
theorem embedEffect_of_lt {s : State} (h : carriers s < s.blen) :
    embedEffect s = finish .capacityExceeded { s with capacity := carriers s } := by
  rw [embedEffect, if_pos ((capacityExceeded_iff_carriers s).mpr h), writeCapacity_eq]

/-- EMBED of a bitstream that fits runs the encode walk. -/
theorem embedEffect_of_le {s : State} (h : s.blen ≤ carriers s) :
    embedEffect s = finish .ok (embedWalk s.blen { s with capacity := carriers s }) := by
  rw [embedEffect, if_neg fun hx => Nat.not_lt.mpr h ((capacityExceeded_iff_carriers s).mp hx), writeCapacity_eq]

/-- The encode walk puts the bitstream in the carrying channels and keeps every other element. -/
theorem holdsEmbedded_embedWalk {s : State} (h : Channels s) : HoldsEmbedded s (embedWalk s.blen s) :=
  ⟨fun _ hblen hcap => imgAt_embedWalk_carrier s.blen s (chans_ge h) hcap hblen,
    fun a ha => imgAt_embedWalk_other s.blen s a fun k hcap hblen => ha k hblen hcap⟩

end Sys2Proof.Claims

namespace Sys2Proof.Proofs

open Sys2Proof.Machine Sys2Proof.Claims

/-- Settles O32: the comparison of `BLEN` with the capacity decides between EMBED's two next states. -/
theorem embedPlacesTheBitstream : Obligations.EmbedPlacesTheBitstream := by
  refine fun s => ⟨startsGuarded .embed s, fun hf hlegal =>
    ⟨_, exec_of_legal hf hlegal, fun hover => ?exceeded, fun hfits => ?ok⟩⟩
  case exceeded =>
    rw [effectOf, embedEffect_of_lt hover]
    exact ⟨rfl, ended_of_status (r := .capacityExceeded) rfl⟩
  case ok =>
    obtain ⟨-, hchans, -, -⟩ := hlegal
    rw [effectOf, embedEffect_of_le hfits]
    exact ⟨rfl, holdsEmbedded_embedWalk (s := { s with capacity := carriers s }) hchans, ended_of_status (r := .ok) rfl⟩

end Sys2Proof.Proofs
end

section
/-! ENCODE (42_insert_encode.md R131): PACK's effect, then EMBED's on the bitstream just stored. -/

namespace Sys2Proof.Claims

open Sys2Proof.Machine

/-- The state in which ENCODE makes its capacity check: the packed message is stored, `STATUS` not yet written. -/
def packed (s : State) : State := storeBitstream (dataBits (message s) ++ sentinelBits) s

theorem packed_blen (s : State) : (packed s).blen = 8 * s.mlen + 16 := by simp [packed]

/-- The packer on a message with an illegal character. -/
theorem pack_message_of_illegal {s : State} (h : ¬LegalMessage s) : pack (message s) = .error .invalidCharacter := by
  obtain ⟨c, hc, hbig⟩ : ∃ c ∈ message s, 255 < c.toNat := by simpa [legalMessage_iff] using h
  exact pack_of_illegal hc hbig

/-- ENCODE of a legal message is EMBED of the packed message. -/
theorem encodeEffect_of_legal {s : State} (h : LegalMessage s) : encodeEffect s = embedEffect (packed s) := by
  rw [encodeEffect, pack_of_legal ((legalMessage_iff s).mp h)]
  rfl

/-- ENCODE of an illegal message only ends with its result. -/
theorem encodeEffect_of_illegal {s : State} (h : ¬LegalMessage s) : encodeEffect s = finish .invalidCharacter s := by
  rw [encodeEffect, pack_message_of_illegal h]

end Sys2Proof.Claims

namespace Sys2Proof.Proofs

open Sys2Proof.Machine Sys2Proof.Claims

/-- Settles O34: the message's legality and then the capacity decide between ENCODE's three next states. -/
theorem encodeHidesTheMessage : Obligations.EncodeHidesTheMessage := by
  refine fun s => ⟨startsGuarded .encode s, fun hf hlegal => ⟨_, exec_of_legal hf hlegal, fun hbad => ?invalid,
    fun hgood hover => ?exceeded, fun hgood hfits => ?ok⟩⟩
  case invalid =>
    rw [effectOf, encodeEffect_of_illegal hbad]
    exact ⟨rfl, ended_of_status (r := .invalidCharacter) rfl⟩
  case exceeded =>
    rw [← packed_blen] at hover ⊢
    rw [effectOf, encodeEffect_of_legal hgood, embedEffect_of_lt (s := packed s) hover]
    exact ⟨rfl, holdsPacked_storeBitstream s, ended_of_status (r := .capacityExceeded) rfl⟩
  case ok =>
    obtain ⟨-, hchans, -, -⟩ := hlegal
    rw [← packed_blen] at hfits ⊢
    rw [effectOf, encodeEffect_of_legal hgood, embedEffect_of_le (s := packed s) hfits]
    exact ⟨rfl, holdsPacked_storeBitstream s,
      holdsEmbedded_embedWalk (s := { packed s with capacity := carriers s }) hchans, ended_of_status (r := .ok) rfl⟩

end Sys2Proof.Proofs
end

section
/-! ENCODE is PACK, then EMBED (42_insert_encode.md R132). -/

namespace Sys2Proof.Claims

open Sys2Proof.Machine

/-- A later result replaces an earlier one (60_exceptions.md R192). -/
theorem finish_finish (r q : Result) (s : State) : finish r (finish q s) = finish r s := by
  simp only [finish, statusOfResult_statusOfResult]

/-- EMBED writes its own result whatever an earlier command left in `STATUS`: neither the capacity check nor the walk
reads it. -/
theorem embedEffect_finish (r : Result) (s : State) : embedEffect (finish r s) = embedEffect s := by
  rcases Nat.lt_or_ge (carriers s) s.blen with hover | hfits
  · rw [embedEffect_of_lt (s := finish r s) hover, embedEffect_of_lt hover]
    exact finish_finish .capacityExceeded r { s with capacity := carriers s }
  · rw [embedEffect_of_le (s := finish r s) hfits, embedEffect_of_le hfits]
    exact finish_finish .ok r (embedWalk s.blen { s with capacity := carriers s })

/-- PACK of a legal message leaves what ENCODE embeds, with its own result. -/
theorem packEffect_eq_packed {s : State} (h : LegalMessage s) : packEffect s = finish .ok (packed s) :=
  packEffect_of_legal h

/-- `MAXBITS` is at least 16 (00_scope.md R8). -/
theorem sixteen_le_maxBits {P : Config.Params} {b : Nat} (hwf : P.wf = true) (hb : P.maxBits = some b) : 16 ≤ b := by
  simp only [Config.Params.wf, Bool.and_eq_true, Config.Params.maxBitsOk, hb, decide_eq_true_eq] at hwf
  obtain ⟨⟨-, hmax⟩, -⟩ := hwf
  exact hmax

/-- A message that fits `MSG` has a packed stream that fits `BITS`. -/
theorem bitstreamInDepth_packed {s : State} (hwf : s.params.wf = true) (h : MessageInDepth s) :
    BitstreamInDepth (packed s) := by
  intro b hb
  have hmsg := h b hb
  have hmax := sixteen_le_maxBits hwf hb
  rw [packed_blen]
  omega

/-- Operands that are legal for ENCODE are legal for PACK. -/
theorem operandsLegal_pack_of_encode {s : State} (h : OperandsLegal .encode s) : OperandsLegal .pack s := by
  obtain ⟨-, -, -, hmsg⟩ := h
  exact hmsg

/-- Operands that are legal for ENCODE are legal for EMBED once the message is packed. -/
theorem operandsLegal_embed_packed {s : State} (hwf : s.params.wf = true) (h : OperandsLegal .encode s) :
    OperandsLegal .embed (packed s) := by
  obtain ⟨hdims, hchans, himage, hmsg⟩ := h
  exact ⟨hdims, hchans, himage, bitstreamInDepth_packed hwf hmsg⟩

end Sys2Proof.Claims

namespace Sys2Proof.Proofs

open Sys2Proof.Machine Sys2Proof.Claims

/-- Settles O38: PACK of a legal message leaves what ENCODE embeds, and EMBED overwrites PACK's result; on an illegal
message both commands only end with the same error. -/
theorem encodeEqualsPackThenEmbed : Obligations.EncodeEqualsPackThenEmbed := by
  intro s hwf hf hlegal
  have hpack : exec .pack s = .next (packEffect s) := exec_of_legal hf (operandsLegal_pack_of_encode hlegal)
  have hencode : exec .encode s = .next (encodeEffect s) := exec_of_legal hf hlegal
  rw [hpack, hencode]
  by_cases hgood : LegalMessage s
  · rw [packEffect_eq_packed hgood, encodeEffect_of_legal hgood]
    have hembed : exec .embed (finish .ok (packed s)) = .next (embedEffect (packed s)) := by
      rw [exec_of_legal (s := finish .ok (packed s)) ((faulted_finish .ok _).trans hf)
        (operandsLegal_embed_packed hwf hlegal), effectOf, embedEffect_finish]
    exact ⟨_, rfl, fun _ => ⟨_, hembed, rfl⟩, fun herror => absurd (resultField_statusOfResult .ok s.status) herror⟩
  · rw [packEffect_of_illegal hgood, encodeEffect_of_illegal hgood]
    refine ⟨_, rfl, fun hok => ?_, fun _ => rfl⟩
    rw [finish_status, resultField_statusOfResult] at hok
    exact absurd hok (by decide)

end Sys2Proof.Proofs
end

section
/-! The inserter on a whole pixel (42_insert_encode.md R121), and the encode walk pixel by pixel. -/

namespace Sys2Proof.Claims

open Sys2Proof.Machine

@[simp] theorem length_insPixel (px : List Byte) (b : List Bit) (nv : Nat) : (insPixel px b nv).length = px.length :=
  List.length_mapIdx

/-- A channel that gets a valid bit. -/
theorem getElem?_insPixel_of_lt {px : List Byte} {b : List Bit} {nv c : Nat} {v : Byte} {x : Bit} (hv : px[c]? = some v)
    (hc : c < 3) (hnv : c < nv) (hx : b[c]? = some x) : (insPixel px b nv)[c]? = some (insCh v x) := by
  rw [insPixel, List.getElem?_mapIdx, hv, Option.map_some, if_pos ⟨hc, hnv⟩, List.getD_eq_getElem?_getD, hx,
    Option.getD_some]

/-- A channel that gets none, alpha among them. -/
theorem getElem?_insPixel_of_ge {px : List Byte} {b : List Bit} {nv c : Nat} {v : Byte} (hv : px[c]? = some v)
    (hc : 3 ≤ c ∨ nv ≤ c) : (insPixel px b nv)[c]? = some v := by
  rw [insPixel, List.getElem?_mapIdx, hv, Option.map_some, if_neg (by simp only [nUsed]; omega)]

@[simp] theorem length_pixel (s : State) (p : Nat) : (pixel s p).length = s.chans.toNat := by simp [pixel]

theorem getElem?_pixel (s : State) (p : Nat) {c : Nat} (h : c < s.chans.toNat) :
    (pixel s p)[c]? = some (imgAt s (channelAddr s p c)) := by
  simp [pixel, channelAddr, h]

/-- Channel `c` of pixel `p` carries a bit only if it is one of the first three, and then bit `3*p + c`. -/
theorem eq_of_channelAddr_eq_carrierAddr {s : State} (hch : 3 ≤ s.chans.toNat) {p c k : Nat} (hc : c < s.chans.toNat)
    (h : channelAddr s p c = carrierAddr s k) : c < 3 ∧ k = 3 * p + c := by
  have hdiv : ∀ q d, d < s.chans.toNat → channelAddr s q d / s.chans.toNat = q := fun q d hd => by
    rw [channelAddr, Nat.mul_comm, Nat.mul_add_div (by omega), Nat.div_eq_of_lt hd, Nat.add_zero]
  have hp : p = k / 3 := by rw [← hdiv p c hc, h]; exact hdiv (k / 3) (k % 3) (by omega)
  have hc : c = k % 3 := by rw [hp] at h; exact Nat.add_left_cancel h
  omega

/-- The encode walk of `L` bits makes of each pixel what the inserter makes of it with the bits still left. -/
theorem pixel_embedWalk {s : State} (hch : Channels s) (L : Nat) {p : Nat} (hp : p < pixelCount s) :
    pixel (embedWalk L s) p
      = insPixel (pixel s p) ((List.range 3).map fun c => bitsAt s (3 * p + c)) (min 3 (L - 3 * p)) := by
  apply List.ext_getElem?
  intro c
  rcases Nat.lt_or_ge c s.chans.toNat with hc | hc
  · have hold := getElem?_pixel s p hc
    rw [getElem?_pixel (embedWalk L s) p hc, channelAddr_embedWalk]
    by_cases hbit : c < 3 ∧ 3 * p + c < L
    · obtain ⟨hc3, hL⟩ := hbit
      have hx : ((List.range 3).map fun c => bitsAt s (3 * p + c))[c]? = some (bitsAt s (3 * p + c)) := by simp [hc3]
      rw [getElem?_insPixel_of_lt hold hc3 (by omega) hx, channelAddr_eq_carrierAddr s p c hc3,
        imgAt_embedWalk_carrier L s (chans_ge hch) (by omega) hL]
    · rw [getElem?_insPixel_of_ge hold (by omega), imgAt_embedWalk_other]
      intro k _ hL hk
      obtain ⟨hc3, rfl⟩ := eq_of_channelAddr_eq_carrierAddr (chans_ge hch) hc hk
      exact hbit ⟨hc3, hL⟩
  · rw [List.getElem?_eq_none (by simpa using hc), List.getElem?_eq_none (by simpa using hc)]

end Sys2Proof.Claims

namespace Sys2Proof.Proofs

open Sys2Proof.Machine Sys2Proof.Claims

/-- Settles O36: a channel of a pixel gets a bit exactly when it carries one that is below `BLEN`. -/
theorem embedInsertsPixelByPixel : Obligations.EmbedInsertsPixelByPixel := by
  refine ⟨fun px b nv _ => ⟨length_insPixel px b nv, fun c v hv =>
    ⟨fun x hc hnv hx => getElem?_insPixel_of_lt hv hc hnv hx, getElem?_insPixel_of_ge hv⟩⟩,
    fun s hf hlegal hfits => ?embed⟩
  case embed =>
    refine ⟨_, exec_of_legal hf hlegal, fun p hp => ?_⟩
    obtain ⟨-, hchans, -, -⟩ := hlegal
    rw [effectOf, embedEffect_of_le hfits]
    exact pixel_embedWalk (s := { s with capacity := carriers s }) hchans s.blen hp

end Sys2Proof.Proofs
end

section
/-! The channel extractor (43_extract_decode.md R140), beside the inserter it undoes. -/

namespace Sys2Proof.Machine

/-- Masking bit 0 is reading it. -/
theorem extCh_eq_mask (v : Byte) : extCh v = (v &&& 1#8).setWidth 1 := by
  apply BitVec.eq_of_toNat_eq
  rw [extCh, toNat_bitAt_zero, BitVec.toNat_setWidth, BitVec.toNat_and, show (1#8).toNat = 1 from rfl,
    Nat.and_one_is_mod]
  omega

/-- The extractor undoes the inserter. -/
@[simp] theorem extCh_insCh (v : Byte) (b : Bit) : extCh (insCh v b) = b := bitAt_insCh v b

end Sys2Proof.Machine

namespace Sys2Proof.Proofs

open Sys2Proof.Machine

/-- Settles O20: the extractor is bit 0 by definition, which is the masked value and the inserted bit. -/
theorem extractorReadsBitZero : Obligations.ExtractorReadsBitZero :=
  ⟨fun v => ⟨extCh_eq_mask v, rfl⟩, fun _ _ h => h, extCh_insCh⟩

end Sys2Proof.Proofs
end

section
/-! EXTRACT (43_extract_decode.md R143, R144): its next state, and the bits it leaves in `BITS`. -/

namespace Sys2Proof.Claims

open Sys2Proof.Machine

/-- The decode walk reads bit 0 of every carrying channel and keeps the elements behind them. -/
theorem holdsExtracted_extractWalk (s : State) : HoldsExtracted s (extractWalk s) :=
  ⟨fun _ hk => (bitsAt_extractWalk s _).trans (if_pos hk),
    fun _ hk => (bitsAt_extractWalk s _).trans (if_neg (Nat.not_lt.mpr hk))⟩

/-- The decode walk writes `BITS` and `BLEN` only (43_extract_decode.md R144). -/
theorem extractWalk_eq (s : State) : extractWalk s = { s with bits := (extractWalk s).bits, blen := carriers s } := by
  rw [carriers_eq, ← extractWalk_blen]
  rfl

/-- EXTRACT ends with OK and writes nothing else (43_extract_decode.md R144). -/
theorem extractEffect_eq (s : State) :
    extractEffect s = { s with
      bits := (extractEffect s).bits, blen := carriers s, status := (extractEffect s).status } :=
  congrArg (finish .ok) (extractWalk_eq s)

/-- EXTRACT leaves the walk's bits. -/
theorem holdsExtracted_extractEffect (s : State) : HoldsExtracted s (extractEffect s) := holdsExtracted_extractWalk s

end Sys2Proof.Claims

namespace Sys2Proof.Proofs

open Sys2Proof.Machine Sys2Proof.Claims

/-- Settles O33: EXTRACT's effect is the decode walk, then OK. -/
theorem extractReadsTheImage : Obligations.ExtractReadsTheImage := fun s =>
  ⟨startsGuarded .extract s, fun hf hlegal =>
    ⟨_, exec_of_legal hf hlegal, extractEffect_eq s, holdsExtracted_extractEffect s, ended_of_status (r := .ok) rfl⟩⟩

end Sys2Proof.Proofs
end

section
/-! DECODE (43_extract_decode.md R146, R148): the decode walk, then UNPACK's effect on the stream just stored, which is
UNPACK after EXTRACT (R149). -/

namespace Sys2Proof.Claims

open Sys2Proof.Machine

/-- UNPACK's effect does not touch `BITS` and `BLEN` (41_pack_unpack.md R108). -/
theorem unpackEffect_keeps_bitstream (s : State) : (unpackEffect s).bits = s.bits ∧ (unpackEffect s).blen = s.blen := by
  rw [unpackEffect]
  split <;> exact ⟨rfl, rfl⟩

/-- Whatever DECODE's result, the whole image's stream stays in `BITS` (43_extract_decode.md R146). -/
theorem holdsExtracted_decodeEffect (s : State) : HoldsExtracted s (decodeEffect s) := by
  obtain ⟨hbits, -⟩ := unpackEffect_keeps_bitstream (extractWalk s)
  simpa only [HoldsExtracted, bitsAt, decodeEffect, hbits] using holdsExtracted_extractWalk s

theorem decodeEffect_blen (s : State) : (decodeEffect s).blen = carriers s :=
  (unpackEffect_keeps_bitstream (extractWalk s)).2.trans (extractWalk_blen s)

/-- The bitstream DECODE leaves is the one its unpacker searched. -/
theorem bitstream_decodeEffect (s : State) : bitstream (decodeEffect s) = bitstream (extractWalk s) := by
  obtain ⟨hbits, hblen⟩ := unpackEffect_keeps_bitstream (extractWalk s)
  rw [decodeEffect, bitstream, hblen]
  exact List.map_congr_left fun k _ => congrArg (Memory.read Config.powerUpBits · k) hbits

/-- UNPACK writes its own result whatever an earlier command left in `STATUS`. -/
theorem unpackEffect_finish (r : Result) (s : State) : unpackEffect (finish r s) = unpackEffect s := by
  simp only [unpackEffect, bitstream_finish]
  split
  · exact finish_finish _ r s
  · exact finish_finish .ok r (storeMessage _ s)

/-- The stream of an image that fits `IMG` fits `BITS`: `3 * floor(MAXBITS / 3) <= MAXBITS`. -/
theorem carriers_le_maxBits {s : State} (h : ImageInDepth s) {b : Nat} (hb : s.params.maxBits = some b) :
    carriers s ≤ b := by
  have := h b hb
  rw [carriers]
  omega

/-- EXTRACT of an image that fits leaves operands that are legal for UNPACK. -/
theorem operandsLegal_unpack_extractEffect {s : State} (h : ImageInDepth s) :
    OperandsLegal .unpack (extractEffect s) := by
  intro b hb
  rw [extractEffect_eq]
  exact carriers_le_maxBits h hb

end Sys2Proof.Claims

namespace Sys2Proof.Proofs

open Sys2Proof.Machine Sys2Proof.Claims

/-- Settles O35: what the search finds in the walk's stream, which DECODE leaves in `BITS`, decides between its two next
states. -/
theorem decodeRecoversTheMessage : Obligations.DecodeRecoversTheMessage := by
  refine fun s => ⟨startsGuarded .decode s, fun hf hlegal => ⟨_, exec_of_legal hf hlegal,
    holdsExtracted_decodeEffect s, decodeEffect_blen s, fun hno => ?none, fun j hfirst => ?some⟩⟩
  case none =>
    have hsearch : findSentinel (bitstream (extractWalk s)) = none := by
      rw [← bitstream_decodeEffect]
      exact (no_sentinelAt_iff _).mp hno
    rw [effectOf, decodeEffect, unpackEffect_of_none hsearch]
    exact ⟨congrArg (finish .sentinelNotFound) (extractWalk_eq s), ended_of_status (r := .sentinelNotFound) rfl⟩
  case some =>
    have hsearch : findSentinel (bitstream (extractWalk s)) = some j := by
      rw [← bitstream_decodeEffect]
      exact (firstSentinelAt_iff _ j).mp hfirst
    have hj : j ≤ (extractWalk s).blen := by
      have := le_length_of_findSentinel hsearch
      rw [length_bitstream] at this
      omega
    rw [effectOf, decodeEffect, unpackEffect_of_some hsearch]
    exact ⟨congrArg (fun w => finish .ok (storeMessage _ w)) (extractWalk_eq s), holdsRecovered_storeMessage hj,
      ended_of_status (r := .ok) rfl⟩

/-- Settles O39: EXTRACT leaves what DECODE unpacks, its length fits `BITS`, and UNPACK overwrites EXTRACT's result. -/
theorem decodeEqualsExtractThenUnpack : Obligations.DecodeEqualsExtractThenUnpack := by
  intro s hf hlegal
  have ⟨_, _, himage⟩ := hlegal
  have hunpack : exec .unpack (extractEffect s) = .next (decodeEffect s) := by
    rw [exec_of_legal (s := extractEffect s) ((faulted_finish .ok _).trans hf)
      (operandsLegal_unpack_extractEffect himage)]
    exact congrArg Host.Outcome.next (unpackEffect_finish .ok (extractWalk s))
  exact ⟨_, _, exec_of_legal (i := .extract) hf hlegal, hunpack, exec_of_legal hf hlegal⟩

end Sys2Proof.Proofs
end

section
/-! The extractor on a whole pixel (43_extract_decode.md R141), and the decode walk pixel by pixel. -/

namespace Sys2Proof.Claims

open Sys2Proof.Machine

/-- The extractor reads from pixel `p` the carrying bits from `3*p` on. -/
theorem extPixel_pixel {s : State} (h : Channels s) (p : Nat) :
    extPixel (pixel s p) = (List.range 3).map fun c => lsb s (3 * p + c) := by
  refine List.map_congr_left fun c hc => ?_
  have hc3 : c < 3 := List.mem_range.mp hc
  have hread := getElem?_pixel s p (Nat.lt_of_lt_of_le hc3 (chans_ge h))
  rw [List.getD_eq_getElem?_getD, hread, Option.getD_some, channelAddr_eq_carrierAddr s p c hc3]
  rfl

end Sys2Proof.Claims

namespace Sys2Proof.Proofs

open Sys2Proof.Machine Sys2Proof.Claims

/-- Settles O37: a pixel's three bits are three consecutive carrying bits of the image. -/
theorem extractReadsPixelByPixel : Obligations.ExtractReadsPixelByPixel := by
  refine ⟨fun _ _ _ => ⟨rfl, fun _ => rfl⟩, fun s hf hlegal => ⟨_, exec_of_legal hf hlegal, fun p hp => ?pixel⟩⟩
  case pixel =>
    obtain ⟨-, hchans, -⟩ := hlegal
    obtain ⟨hread, -⟩ := holdsExtracted_extractEffect s
    calc [bitsAt (extractEffect s) (3 * p), bitsAt (extractEffect s) (3 * p + 1), bitsAt (extractEffect s) (3 * p + 2)]
        = (List.range 3).map fun c => bitsAt (extractEffect s) (3 * p + c) := rfl
      _ = (List.range 3).map fun c => lsb s (3 * p + c) := List.map_congr_left fun c hc => hread _ (by
          have hc3 : c < 3 := List.mem_range.mp hc
          rw [carriers]
          omega)
      _ = extPixel (pixel s p) := (extPixel_pixel hchans p).symm

end Sys2Proof.Proofs
end

section
/-! Extraction after embedding (43_extract_decode.md R145): what EMBED and ENCODE leave when they end with OK, and which
bits a core with the same image reads from it. -/

namespace Sys2Proof.Claims

open Sys2Proof.Machine

/-- A command that leaves the core unfaulted had legal operands, and did its effect. -/
theorem legal_of_unfaulted {i : Instr} {s t : State} (hf : faulted s = false) (h : exec i s = .next t)
    (ht : faulted t = false) : OperandsLegal i s ∧ t = effectOf i s := by
  rw [exec_eq_runCommand] at h
  rcases runCommand_cases (operandsOk i s) (effectOf i) s with ⟨hfault, -⟩ | ⟨-, -, hbad⟩ | ⟨-, hok, heffect⟩
  · exact absurd (hf.symm.trans hfault) (by decide)
  · obtain rfl := Host.Outcome.next.inj (hbad.symm.trans h)
    exact absurd ((faulted_raiseFault _ s).symm.trans ht) (by decide)
  · exact ⟨(operandsOk_iff i s).mp hok, Host.Outcome.next.inj (h.symm.trans heffect)⟩

/-- EMBED ends with OK only if the bitstream fits the image. -/
theorem le_carriers_of_embedEffect_ok {s : State} (h : resultField (embedEffect s).status = 0#2) :
    s.blen ≤ carriers s := by
  by_contra hover
  rw [embedEffect_of_lt (Nat.not_le.mp hover), finish_status, resultField_statusOfResult] at h
  exact absurd h (by decide)

/-- ENCODE ends with OK only on a legal message. -/
theorem legalMessage_of_encodeEffect_ok {s : State} (h : resultField (encodeEffect s).status = 0#2) :
    LegalMessage s := by
  by_contra hbad
  rw [encodeEffect_of_illegal hbad, finish_status, resultField_statusOfResult] at h
  exact absurd h (by decide)

/-- `t` is `s` with a bitstream that fits embedded in its image: geometry and sizes are those of `s`. -/
structure Embedded (s t : State) : Prop where
  width : t.width = s.width
  height : t.height = s.height
  chans : t.chans = s.chans
  params : t.params = s.params
  image : HoldsEmbedded s t
  fits : t.blen ≤ carriers s

theorem embedded_embedEffect {s : State} (hch : Channels s) (h : resultField (embedEffect s).status = 0#2) :
    Embedded s (embedEffect s) := by
  have hfits := le_carriers_of_embedEffect_ok h
  rw [embedEffect_of_le hfits]
  exact ⟨rfl, rfl, rfl, rfl, holdsEmbedded_embedWalk (s := { s with capacity := carriers s }) hch, hfits⟩

theorem embedded_encodeEffect {s : State} (hch : Channels s) (h : resultField (encodeEffect s).status = 0#2) :
    Embedded s (encodeEffect s) := by
  have hgood := legalMessage_of_encodeEffect_ok h
  rw [encodeEffect_of_legal hgood] at h ⊢
  obtain ⟨hwidth, hheight, hchans, hparams, himage, hfits⟩ := embedded_embedEffect (s := packed s) hch h
  exact ⟨hwidth, hheight, hchans, hparams, himage, hfits⟩

/-- EMBED and ENCODE that end with OK had an image to walk, and embedded a bitstream that fits it. -/
theorem embedded_of_ok {i : Instr} {s t : State} (hi : i = .embed ∨ i = .encode) (hf : faulted s = false)
    (h : exec i s = .next t) (ht : faulted t = false) (hok : resultField t.status = 0#2) :
    OperandsLegal .extract s ∧ Embedded s t := by
  obtain ⟨hlegal, rfl⟩ := legal_of_unfaulted hf h ht
  rcases hi with rfl | rfl
  · obtain ⟨hdims, hchans, himage, -⟩ := hlegal
    exact ⟨⟨hdims, hchans, himage⟩, embedded_embedEffect hchans hok⟩
  · obtain ⟨hdims, hchans, himage, -⟩ := hlegal
    exact ⟨⟨hdims, hchans, himage⟩, embedded_encodeEffect hchans hok⟩

/-- A channel below the end of the bitstream carries its bit. -/
theorem lsb_of_embedded_lt {s t : State} (h : Embedded s t) {k : Nat} (hk : k < t.blen) : lsb t k = bitsAt t k := by
  obtain ⟨hcarry, -⟩ := h.image
  have himg : imgAt t (carrier s k) = insCh (imgAt s (carrier s k)) (bitsAt t k) :=
    hcarry k hk (Nat.lt_of_lt_of_le hk h.fits)
  rw [lsb, carrier, h.chans, ← carrier, himg, bitAt_insCh]

/-- A channel the bitstream did not reach carries what it carried. -/
theorem lsb_of_embedded_ge {s t : State} (h : Embedded s t) (hch : Channels s) {k : Nat} (hk : t.blen ≤ k) :
    lsb t k = lsb s k := by
  obtain ⟨-, hkeep⟩ := h.image
  have himg : imgAt t (carrier s k) = imgAt s (carrier s k) := hkeep _ fun l hl _ heq => by
    have := carrierAddr_injective s (chans_ge hch) heq
    omega
  rw [lsb, carrier, h.chans, ← carrier, himg, lsb]

/-- The carrying bits depend only on the image and the geometry. -/
theorem lsb_of_sameImage {t u : State} (h : SameImage t u) (k : Nat) : lsb u k = lsb t k := by
  obtain ⟨himg, -, -, hchans, -, -⟩ := h
  rw [lsb, carrier, hchans, himg, lsb, carrier]

/-- Every core that has the image extracts as many bits as the embedding image has carrying channels. -/
theorem carriers_of_sameImage {s t u : State} (h : Embedded s t) (hu : SameImage t u) : carriers u = carriers s := by
  obtain ⟨-, hwidth, hheight, -, -, -⟩ := hu
  rw [carriers, hwidth, hheight, h.width, h.height, carriers]

/-- Operands that were legal for embedding are legal for extracting, on every core that has the image. -/
theorem operandsLegal_extract_of_sameImage {s t u : State} (h : Embedded s t) (hu : SameImage t u)
    (hlegal : OperandsLegal .extract s) : OperandsLegal .extract u := by
  obtain ⟨-, hwidth, hheight, hchans, hparams, -⟩ := hu
  simpa only [OperandsLegal, Dimensions, Channels, ImageInDepth, hwidth, hheight, hchans, hparams, h.width, h.height,
    h.chans, h.params] using hlegal

end Sys2Proof.Claims

namespace Sys2Proof.Proofs

open Sys2Proof.Machine Sys2Proof.Claims

/-- Settles O40: EXTRACT reads the carrying bits of the embedded image, which are the bitstream and behind it the old
ones. -/
theorem extractReturnsWhatWasEmbedded : Obligations.ExtractReturnsWhatWasEmbedded := by
  intro i s t hi hf hexec ht hok u hu
  obtain ⟨hlegal, hemb⟩ := embedded_of_ok hi hf hexec ht hok
  have ⟨_, _, _, _, _, hfu⟩ := hu
  have ⟨_, hchans, _⟩ := hlegal
  obtain ⟨hread, -⟩ := holdsExtracted_extractEffect u
  have hbit : ∀ k, k < carriers s → bitsAt (extractEffect u) k = lsb t k := fun k hk => by
    rw [hread k (by rwa [carriers_of_sameImage hemb hu]), lsb_of_sameImage hu]
  refine ⟨_, exec_of_legal hfu (operandsLegal_extract_of_sameImage hemb hu hlegal), fun k hk => ?stream,
    fun k hk hcap => ?behind⟩
  case stream => exact (hbit k (Nat.lt_of_lt_of_le hk hemb.fits)).trans (lsb_of_embedded_lt hemb hk)
  case behind => exact (hbit k hcap).trans (lsb_of_embedded_ge hemb hchans hk)

end Sys2Proof.Proofs
end

section
/-! What each command writes (10_state.md R36, 44_properties.md R167): a command's next state is the old one with the
fields of the command's row, and no others, replaced. -/

namespace Sys2Proof.Claims

open Sys2Proof.Machine

/-- `s` with the fields that command `i` may write taken from `t` (10_state.md R36). -/
def withOutputs (i : Instr) (s t : State) : State :=
  match i with
  | .chkcap => { s with capacity := t.capacity, status := t.status }
  | .pack => { s with bits := t.bits, blen := t.blen, status := t.status }
  | .unpack => { s with msg := t.msg, mlen := t.mlen, status := t.status }
  | .embed => { s with img := t.img, capacity := t.capacity, status := t.status }
  | .extract => { s with bits := t.bits, blen := t.blen, status := t.status }
  | .encode =>
    { s with bits := t.bits, blen := t.blen, img := t.img, capacity := t.capacity, status := t.status }
  | .decode => { s with bits := t.bits, blen := t.blen, msg := t.msg, mlen := t.mlen, status := t.status }

/-- A fault writes `STATUS` only, which every row names. -/
theorem eq_withOutputs_of_status (i : Instr) (s : State) (st : BitVec 8) :
    { s with status := st } = withOutputs i s { s with status := st } := by
  cases i <;> rfl

/-- EMBED's effect is also the end of ENCODE's. -/
theorem embedEffect_eq_withOutputs (s : State) : embedEffect s = withOutputs .embed s (embedEffect s) := by
  rw [embedEffect]
  split <;> rfl

/-- A command's effect writes no more than the command's row. -/
theorem effectOf_eq_withOutputs (i : Instr) (s : State) : effectOf i s = withOutputs i s (effectOf i s) := by
  cases i with
  | chkcap => rw [effectOf, chkcapEffect_eq]; rfl
  | pack => rw [effectOf, packEffect]; split <;> rfl
  | unpack => rw [effectOf, unpackEffect]; split <;> rfl
  | embed => exact embedEffect_eq_withOutputs s
  | extract => rw [effectOf, extractEffect_eq]; rfl
  | encode =>
    rw [effectOf, encodeEffect]
    split
    · rfl
    · rw [embedEffect_eq_withOutputs]; rfl
  | decode => rw [effectOf, decodeEffect, unpackEffect]; split <;> rfl

/-- Ignored, refused or run, a command writes no more than its row. -/
theorem eq_withOutputs_of_exec {i : Instr} {s t : State} (h : exec i s = .next t) : t = withOutputs i s t := by
  rw [exec_eq_runCommand] at h
  rcases runCommand_cases (operandsOk i s) (effectOf i) s with ⟨-, hsame⟩ | ⟨-, -, hbad⟩ | ⟨-, -, heffect⟩
  · obtain rfl := Host.Outcome.next.inj (hsame.symm.trans h)
    exact eq_withOutputs_of_status i s s.status
  · obtain rfl := Host.Outcome.next.inj (hbad.symm.trans h)
    exact eq_withOutputs_of_status i s _
  · obtain rfl := Host.Outcome.next.inj (heffect.symm.trans h)
    exact effectOf_eq_withOutputs i s

/-! The rows field by field. -/

theorem withOutputs_geometry (i : Instr) (s t : State) : (withOutputs i s t).width = s.width
    ∧ (withOutputs i s t).height = s.height ∧ (withOutputs i s t).chans = s.chans := by
  cases i <;> exact ⟨rfl, rfl, rfl⟩

theorem withOutputs_own (i : Instr) (s t : State) : (withOutputs i s t).params = s.params
    ∧ (withOutputs i s t).host = s.host ∧ (withOutputs i s t).reply = s.reply := by
  cases i <;> exact ⟨rfl, rfl, rfl⟩

theorem withOutputs_message {i : Instr} (s t : State) (h : i ≠ .unpack) (h' : i ≠ .decode) :
    (withOutputs i s t).mlen = s.mlen ∧ (withOutputs i s t).msg = s.msg := by
  match i with
  | .unpack => exact absurd rfl h
  | .decode => exact absurd rfl h'
  | .chkcap | .pack | .embed | .extract | .encode => exact ⟨rfl, rfl⟩

theorem withOutputs_bitstream {i : Instr} (s t : State) (h : i = .chkcap ∨ i = .unpack ∨ i = .embed) :
    (withOutputs i s t).blen = s.blen ∧ (withOutputs i s t).bits = s.bits := by
  rcases h with rfl | rfl | rfl <;> exact ⟨rfl, rfl⟩

theorem withOutputs_capacity {i : Instr} (s t : State) (h : i ≠ .chkcap) (h' : i ≠ .embed) (h'' : i ≠ .encode) :
    (withOutputs i s t).capacity = s.capacity := by
  match i with
  | .chkcap => exact absurd rfl h
  | .embed => exact absurd rfl h'
  | .encode => exact absurd rfl h''
  | .pack | .unpack | .extract | .decode => rfl

theorem withOutputs_img {i : Instr} (s t : State) (h : i ≠ .embed) (h' : i ≠ .encode) :
    (withOutputs i s t).img = s.img := by
  match i with
  | .embed => exact absurd rfl h
  | .encode => exact absurd rfl h'
  | .chkcap | .pack | .unpack | .extract | .decode => rfl

end Sys2Proof.Claims

namespace Sys2Proof.Proofs

open Sys2Proof.Machine Sys2Proof.Claims

/-- Settles O47: the next state is the old one with the command's row replaced, and each row is read off. -/
theorem commandsWriteOnlyTheirOutputs : Obligations.CommandsWriteOnlyTheirOutputs := by
  intro i s
  obtain ⟨t, ht⟩ := exec_answers i s
  refine ⟨t, ht, ?_⟩
  rw [eq_withOutputs_of_exec ht]
  obtain ⟨hwidth, hheight, hchans⟩ := withOutputs_geometry i s t
  obtain ⟨hparams, hhost, hreply⟩ := withOutputs_own i s t
  exact ⟨hwidth, hheight, hchans, hparams, hhost, hreply, withOutputs_message s t, withOutputs_bitstream s t,
    withOutputs_capacity s t, withOutputs_img s t⟩

end Sys2Proof.Proofs
end

section
/-! What EMBED and ENCODE can do to the image (42_insert_encode.md R124, 44_properties.md R164 to R166, R168): nothing, or
place the bitstream of the next state and end with OK. -/

namespace Sys2Proof.Claims

open Sys2Proof.Machine

/-- EMBED that changes the image ends with OK. -/
theorem img_embedEffect (s : State) :
    (embedEffect s).img = s.img ∨ resultField (embedEffect s).status = 0#2 := by
  rcases Nat.lt_or_ge (carriers s) s.blen with hover | hfits
  · rw [embedEffect_of_lt hover]
    exact .inl rfl
  · rw [embedEffect_of_le hfits]
    exact .inr (resultField_statusOfResult .ok s.status)

/-- ENCODE that changes the image ends with OK. -/
theorem img_encodeEffect (s : State) :
    (encodeEffect s).img = s.img ∨ resultField (encodeEffect s).status = 0#2 := by
  by_cases hgood : LegalMessage s
  · rw [encodeEffect_of_legal hgood]
    exact img_embedEffect (packed s)
  · rw [encodeEffect_of_illegal hgood]
    exact .inl rfl

theorem img_effectOf {i : Instr} (hi : i = .embed ∨ i = .encode) (s : State) :
    (effectOf i s).img = s.img ∨ resultField (effectOf i s).status = 0#2 := by
  rcases hi with rfl | rfl
  · exact img_embedEffect s
  · exact img_encodeEffect s

/-- EMBED and ENCODE leave the image as it is, or they complete with OK and place their bitstream. -/
theorem img_eq_or_embedded {i : Instr} {s t : State} (hi : i = .embed ∨ i = .encode) (h : exec i s = .next t) :
    t.img = s.img ∨
      (faulted t = false ∧ resultField t.status = 0#2 ∧ OperandsLegal .extract s ∧ Embedded s t) := by
  have hcases := runCommand_cases (operandsOk i s) (effectOf i) s
  rw [← exec_eq_runCommand] at hcases
  rcases hcases with ⟨-, hsame⟩ | ⟨-, -, hbad⟩ | ⟨hf, -, heffect⟩
  · obtain rfl := Host.Outcome.next.inj (hsame.symm.trans h)
    exact .inl rfl
  · obtain rfl := Host.Outcome.next.inj (hbad.symm.trans h)
    exact .inl rfl
  · obtain rfl := Host.Outcome.next.inj (heffect.symm.trans h)
    refine (img_effectOf hi s).imp_right fun hok => ?_
    obtain ⟨r, hr⟩ := effectOf_status i s
    have hft : faulted (effectOf i s) = false := by rw [faulted, hr, faultField_statusOfResult, ← faulted, hf]
    exact ⟨hft, hok, embedded_of_ok hi hf h hft hok⟩

/-- An embedding puts into an element the bit it carries, or keeps it. -/
theorem imgAt_of_holdsEmbedded {s t : State} (h : HoldsEmbedded s t) (a : Nat) :
    imgAt t a = imgAt s a ∨ ∃ k, k < t.blen ∧ a = carrier s k ∧ imgAt t a = insCh (imgAt s a) (bitsAt t k) := by
  obtain ⟨hcarry, hkeep⟩ := h
  by_cases hreached : ∃ k, k < t.blen ∧ k < carriers s ∧ a = carrier s k
  · obtain ⟨k, hblen, hcap, rfl⟩ := hreached
    exact .inr ⟨k, hblen, rfl, hcarry k hblen hcap⟩
  · exact .inl (hkeep a fun k hblen hcap ha => hreached ⟨k, hblen, hcap, ha⟩)

/-- EMBED and ENCODE put into an image element the bit it carries, or keep it. -/
theorem imgAt_eq_or_insCh {i : Instr} {s t : State} (hi : i = .embed ∨ i = .encode) (h : exec i s = .next t) (a : Nat) :
    imgAt t a = imgAt s a ∨
      Channels s ∧ ∃ k, k < t.blen ∧ a = carrier s k ∧ imgAt t a = insCh (imgAt s a) (bitsAt t k) := by
  rcases img_eq_or_embedded hi h with himg | ⟨-, -, ⟨-, hchans, -⟩, hemb⟩
  · exact .inl (by rw [imgAt, himg, imgAt])
  · exact (imgAt_of_holdsEmbedded hemb.image a).imp_right fun hk => ⟨hchans, hk⟩

/-- Channel `c` of pixel `p` is kept unless it is one of the three carrying channels and bit `3*p + c` is below `BLEN`. -/
theorem imgAt_channel_kept {i : Instr} {s t : State} (hi : i = .embed ∨ i = .encode) (h : exec i s = .next t) {p c : Nat}
    (hc : c < 3 ∨ c < s.chans.toNat) (hkept : 3 ≤ c ∨ t.blen ≤ 3 * p + c) :
    imgAt t (p * s.chans.toNat + c) = imgAt s (p * s.chans.toNat + c) := by
  rcases imgAt_eq_or_insCh hi h (p * s.chans.toNat + c) with hsame | ⟨hchans, k, hk, ha, -⟩
  · exact hsame
  · have hch := chans_ge hchans
    obtain ⟨hc3, rfl⟩ := eq_of_channelAddr_eq_carrierAddr hch (by omega) ha
    omega

/-- The inserter moves a channel value by at most 1 (42_insert_encode.md R120). -/
theorem insCh_within_one (v : Byte) (b : Bit) :
    (insCh v b).toNat ≤ v.toNat + 1 ∧ v.toNat ≤ (insCh v b).toNat + 1 := by
  rw [toNat_insCh]
  omega

end Sys2Proof.Claims

namespace Sys2Proof.Proofs

open Sys2Proof.Machine Sys2Proof.Claims

/-- Settles O44: channel 3 is not one of the carrying channels. -/
theorem alphaIsPreserved : Obligations.AlphaIsPreserved := by
  intro i s hi hchans
  obtain ⟨t, ht⟩ := exec_answers i s
  have hfour : s.chans.toNat = 4 := by rw [hchans]; rfl
  refine ⟨t, ht, fun p _ => ?_⟩
  have halpha := imgAt_channel_kept hi ht (p := p) (c := 3) (.inr (by omega)) (.inl (Nat.le_refl 3))
  rwa [hfour, Nat.mul_comm] at halpha

/-- Settles O45: a carrying channel behind the last touched one has a bit number of at least `BLEN`. -/
theorem unreachedPixelsAreIdentical : Obligations.UnreachedPixelsAreIdentical := by
  intro i s hi
  obtain ⟨t, ht⟩ := exec_answers i s
  refine ⟨t, ht, fun p c _ hc hbehind => ?pixels, fun p c hp hc hblen => ?lastPixel⟩
  case pixels => exact imgAt_channel_kept hi ht (.inr hc) (.inr (by omega))
  case lastPixel => exact imgAt_channel_kept hi ht (.inl hc) (.inr hblen)

/-- Settles O46: an element that changes is what the inserter makes of it. -/
theorem imageChangesByAtMostOne : Obligations.ImageChangesByAtMostOne := by
  intro i s hi
  obtain ⟨t, ht⟩ := exec_answers i s
  refine ⟨t, ht, fun a => ?_⟩
  rcases imgAt_eq_or_insCh hi ht a with hsame | ⟨-, k, -, -, hins⟩
  · rw [hsame]
    exact ⟨rfl, Nat.le_succ _, Nat.le_succ _⟩
  · rw [hins]
    exact ⟨extract_upper_insCh _ _, insCh_within_one _ _⟩

/-- Settles O48: EMBED and ENCODE change the image only when they complete with OK, and no other command's row names
it. -/
theorem errorsChangeNoImage : Obligations.ErrorsChangeNoImage := by
  intro i s
  obtain ⟨t, ht⟩ := exec_answers i s
  refine ⟨t, ht, fun hi herror => ?embedding, fun h h' => ?other⟩
  case embedding =>
    rcases img_eq_or_embedded hi ht with hsame | ⟨hft, hok, -⟩
    · exact hsame
    · rw [hok, hft] at herror
      exact absurd herror (by decide)
  case other =>
    rw [eq_withOutputs_of_exec ht]
    exact withOutputs_img s t h h'

end Sys2Proof.Proofs
end

section
/-! Recovering a packed message (44_properties.md R161, R162, R169): what UNPACK's effect leaves on a bitstream that
begins with a packed message, whatever follows it. -/

namespace Sys2Proof.Claims

open Sys2Proof.Machine

/-- A data bit of the message memory is an element of the packer's data bits. -/
theorem getElem?_dataBits_message {s : State} {k : Nat} (h : k < 8 * s.mlen) :
    (dataBits (message s))[k]? = some (dataBit s k) := by
  have hchar : (message s)[k / 8]? = some (msgAt s (k / 8)) := getElem?_message s (by omega)
  have hbit := getElem?_dataBits hchar (t := k % 8) (by omega)
  rwa [Nat.div_add_mod] at hbit

/-- A collision is the pattern in the packer's data bits. -/
theorem collisionAt_iff (s : State) (j : Nat) : CollisionAt s j ↔ PatternAt (dataBits (message s)) j := by
  by_cases hend : j + 16 ≤ 8 * s.mlen
  · refine (and_iff_right hend).trans (and_congr (forall₂_congr fun u hu => ?_) ?_)
    · rw [getElem?_dataBits_message (by omega), Option.some.injEq]
    · rw [getElem?_dataBits_message (by omega), Option.some.injEq]
  · exact iff_of_false (fun ⟨h, _⟩ => hend h) fun h => hend (by simpa using h.le_length)

/-- A message without a collision is cut at its end. -/
theorem cutPosition_of_no_collision {s : State} (h : ∀ j, ¬CollisionAt s j) :
    cutPosition (message s) = 8 * s.mlen := by
  simp only [collisionAt_iff] at h
  rw [cutPosition_of_none ((findSentinel_eq_none_iff_patternAt _).mpr h), length_message]

/-- A message with a collision is cut at the first one. -/
theorem cutPosition_of_first_collision {s : State} {j : Nat} (hat : CollisionAt s j)
    (hfirst : ∀ i, i < j → ¬CollisionAt s i) : cutPosition (message s) = j := by
  simp only [collisionAt_iff] at hat hfirst
  exact cutPosition_of_some ((findSentinel_eq_some_iff_patternAt _ j).mpr ⟨hat, hfirst⟩)

/-- A legal character is the byte that is packed, zero-extended (41_pack_unpack.md R107). -/
theorem setWidth_setWidth_of_legal {c : Char32} (h : c.toNat ≤ 255) : (c.setWidth 8).setWidth 32 = c := by
  apply BitVec.eq_of_toNat_eq
  rw [BitVec.toNat_setWidth, BitVec.toNat_setWidth]
  omega

/-- `v` is the end of an UNPACK or DECODE, started in `u`, that found its sentinel where the message of `s` is cut and
stored the characters before it. -/
structure Recovered (s u v : State) : Prop where
  ended : Ended 0#2 u v
  first : FirstSentinelAt v (cutPosition (message s))
  mlen : v.mlen = cutPosition (message s) / 8
  chars : ∀ i, i < v.mlen → msgAt v i = msgAt s i

/-- UNPACK recovers a legal message from every bitstream that begins with its packed stream. -/
theorem recovered_unpackEffect {s w : State} {T : List Bit} (hgood : LegalMessage s)
    (hstream : bitstream w = dataBits (message s) ++ sentinelBits ++ T) : Recovered s w (unpackEffect w) := by
  have hcut := cutPosition_le (message s)
  rw [length_message] at hcut
  have hlen : (((message s).map fun c => c.setWidth 8).take (cutPosition (message s) / 8)).length
      = cutPosition (message s) / 8 := by
    rw [List.length_take, List.length_map, length_message]
    omega
  rw [unpackEffect, hstream, unpack_packed_append]
  refine ⟨ended_of_status (r := .ok) rfl, ?first, hlen, fun i hi => ?char⟩
  case first =>
    rw [firstSentinelAt_iff, bitstream_finish, bitstream_storeMessage, hstream, findSentinel_packed_append]
  case char =>
    have hi : i < cutPosition (message s) / 8 := hi.trans_eq hlen
    rw [msgAt_finish, msgAt_storeMessage, List.getElem?_take_of_lt hi, List.getElem?_map,
      getElem?_message s (by omega)]
    exact setWidth_setWidth_of_legal (hgood i (by omega))

/-- Bitstreams with the same length and the same elements are the same sequence. -/
theorem bitstream_of_sameBitstream {t u : State} (h : SameBitstream t u) : bitstream u = bitstream t := by
  obtain ⟨hbits, hblen, -, -⟩ := h
  rw [bitstream, bitstream, hblen]
  exact List.map_congr_left fun k hk => hbits k (List.mem_range.mp hk)

end Sys2Proof.Claims

namespace Sys2Proof.Proofs

open Sys2Proof.Machine Sys2Proof.Claims

/-- Settles O27: on sequences by R111's equivalence; on the commands, what UNPACK reads is the packed stream with nothing
behind it, and it fits `BITS` because the message fits `MSG`. -/
theorem unpackUndoesPack : Obligations.UnpackUndoesPack := by
  refine ⟨fun M T hlegal hno => ?sequences, fun s hwf hf hlegal hgood hno => ?commands⟩
  case sequences =>
    refine ⟨_, pack_of_legal hlegal, (unpack_packed_append_eq_map_iff M T).mp hno, ?_⟩
    rw [List.map_map]
    exact (List.map_congr_left fun c hc => setWidth_setWidth_of_legal (hlegal c hc)).trans (List.map_id M)
  case commands =>
    have hpack : exec .pack s = .next (finish .ok (packed s)) := by
      rw [exec_of_legal hf hlegal, effectOf, packEffect_eq_packed hgood]
    refine ⟨_, hpack, ended_of_status (r := .ok) rfl, fun u hu => ?_⟩
    have hstream : bitstream u = dataBits (message s) ++ sentinelBits ++ [] := by
      rw [bitstream_of_sameBitstream hu, bitstream_finish, packed, bitstream_storeBitstream, List.append_nil]
    have hrec := recovered_unpackEffect hgood hstream
    have hmlen : (unpackEffect u).mlen = s.mlen := by
      rw [hrec.mlen, cutPosition_of_no_collision hno]
      omega
    obtain ⟨-, hblen, hparams, hfu⟩ := hu
    have hfits : OperandsLegal .unpack u := by
      have hdepth := bitstreamInDepth_packed hwf hlegal
      rwa [BitstreamInDepth, ← finish_blen .ok, ← finish_params .ok, ← hblen, ← hparams] at hdepth
    exact ⟨_, exec_of_legal hfu hfits, hrec.ended, hmlen, hmlen ▸ hrec.chars⟩

end Sys2Proof.Proofs
end

section
/-! DECODE after ENCODE (44_properties.md R161 to R163): the stream that every core with the encoded image extracts begins
with the packed message. -/

namespace Sys2Proof.Claims

open Sys2Proof.Machine

/-- The decode walk's stream is the carrying bits of the image in walk order. -/
theorem bitstream_extractWalk (s : State) : bitstream (extractWalk s) = (List.range (carriers s)).map (lsb s) := by
  obtain ⟨hread, -⟩ := holdsExtracted_extractWalk s
  rw [bitstream, extractWalk_blen, ← carriers_eq]
  exact List.map_congr_left fun k hk => hread k (List.mem_range.mp hk)

/-- What a core extracts from an embedded image begins with the embedded bitstream. -/
theorem bitstream_extractWalk_of_embedded {s t u : State} (h : Embedded s t) (hu : SameImage t u) :
    ∃ T, bitstream (extractWalk u) = bitstream t ++ T := by
  have hsplit : carriers u = t.blen + (carriers s - t.blen) := by
    have := h.fits
    rw [carriers_of_sameImage h hu]
    omega
  rw [bitstream_extractWalk, hsplit, List.range_add, List.map_append]
  refine ⟨_, congrArg (· ++ _) (List.map_congr_left fun k hk => ?_)⟩
  rw [lsb_of_sameImage hu, lsb_of_embedded_lt h (List.mem_range.mp hk)]

/-- ENCODE of a legal message that fits walks the image with the packed message. -/
theorem encodeEffect_of_fits {s : State} (hgood : LegalMessage s) (hfits : 8 * s.mlen + 16 ≤ carriers s) :
    encodeEffect s = finish .ok (embedWalk (packed s).blen { packed s with capacity := carriers s }) := by
  rw [← packed_blen] at hfits
  rw [encodeEffect_of_legal hgood, embedEffect_of_le (s := packed s) hfits]
  rfl

/-- ENCODE leaves the packed message in `BITS`. -/
theorem bitstream_encodeEffect {s : State} (hgood : LegalMessage s) (hfits : 8 * s.mlen + 16 ≤ carriers s) :
    bitstream (encodeEffect s) = dataBits (message s) ++ sentinelBits := by
  rw [encodeEffect_of_fits hgood hfits, bitstream_finish, bitstream_embedWalk]
  exact bitstream_storeBitstream _ s

/-- ENCODE of a legal message that fits ends with OK. -/
theorem status_encodeEffect {s : State} (hgood : LegalMessage s) (hfits : 8 * s.mlen + 16 ≤ carriers s) :
    (encodeEffect s).status = statusOfResult .ok s.status := by
  rw [encodeEffect_of_fits hgood hfits]
  rfl

/-- ENCODE of a legal message that fits leaves an embedded image. -/
theorem embedded_encodeEffect_of_fits {s : State} (hch : Channels s) (hgood : LegalMessage s)
    (hfits : 8 * s.mlen + 16 ≤ carriers s) : Embedded s (encodeEffect s) :=
  embedded_encodeEffect hch (by rw [status_encodeEffect hgood hfits, resultField_statusOfResult]; rfl)

/-- DECODE of an encoded image recovers the message up to its cut. -/
theorem recovered_decodeEffect {s u : State} (hch : Channels s) (hgood : LegalMessage s)
    (hfits : 8 * s.mlen + 16 ≤ carriers s) (hu : SameImage (encodeEffect s) u) : Recovered s u (decodeEffect u) := by
  obtain ⟨T, hT⟩ := bitstream_extractWalk_of_embedded (embedded_encodeEffect_of_fits hch hgood hfits) hu
  rw [bitstream_encodeEffect hgood hfits] at hT
  obtain ⟨hended, hfirst, hmlen, hchars⟩ := recovered_unpackEffect hgood hT
  exact ⟨hended, hfirst, hmlen, hchars⟩

/-- The round trip: ENCODE of a legal message that fits ends with OK, and DECODE on every core that has the image recovers
the message up to its cut. -/
theorem roundTrip {s : State} (hf : faulted s = false) (hlegal : OperandsLegal .encode s) (hgood : LegalMessage s)
    (hfits : 8 * s.mlen + 16 ≤ carriers s) :
    ∃ t, exec .encode s = .next t ∧ Ended 0#2 s t ∧
      ∀ u, SameImage t u → ∃ v, exec .decode u = .next v ∧ v.blen = carriers s ∧ Recovered s u v := by
  refine ⟨_, exec_of_legal hf hlegal, ended_of_status (r := .ok) (status_encodeEffect hgood hfits), fun u hu => ?_⟩
  obtain ⟨hdims, hchans, himage, -⟩ := hlegal
  have hemb := embedded_encodeEffect_of_fits hchans hgood hfits
  have hdecode : OperandsLegal .decode u := operandsLegal_extract_of_sameImage hemb hu ⟨hdims, hchans, himage⟩
  have ⟨_, _, _, _, _, hfu⟩ := hu
  exact ⟨_, exec_of_legal hfu hdecode, (decodeEffect_blen u).trans (carriers_of_sameImage hemb hu),
    recovered_decodeEffect hchans hgood hfits hu⟩

/-- A message without a collision comes back whole. -/
theorem Recovered.whole {s u v : State} (h : Recovered s u v) (hno : ∀ j, ¬CollisionAt s j) :
    FirstSentinelAt v (8 * s.mlen) ∧ v.mlen = s.mlen ∧ ∀ i, i < s.mlen → msgAt v i = msgAt s i := by
  obtain ⟨-, hfirst, hmlen, hchars⟩ := h
  rw [cutPosition_of_no_collision hno] at hfirst hmlen
  have hmlen : v.mlen = s.mlen := by omega
  exact ⟨hfirst, hmlen, hmlen ▸ hchars⟩

/-- A command ends with one result. -/
theorem Ended.result_eq {r q : BitVec 2} {s t : State} (h : Ended r s t) (h' : Ended q s t) : r = q := by
  obtain ⟨hr, -⟩ := h
  obtain ⟨hq, -⟩ := h'
  exact hr.symm.trans hq

end Sys2Proof.Claims

namespace Sys2Proof.Proofs

open Sys2Proof.Machine Sys2Proof.Claims

/-- Settles O41: the round trip, the message being cut at its end. -/
theorem decodeRecoversWhatEncodeHid : Obligations.DecodeRecoversWhatEncodeHid := by
  intro s hf hlegal hgood hno hfits
  obtain ⟨t, hencode, hended, hdecode⟩ := roundTrip hf hlegal hgood hfits
  refine ⟨t, hencode, hended, fun u hu => ?_⟩
  obtain ⟨v, hv, -, hrec⟩ := hdecode u hu
  obtain ⟨-, hmlen, hchars⟩ := hrec.whole hno
  exact ⟨v, hv, hrec.ended, hmlen, hchars⟩

/-- Settles O42: the round trip, the message being cut at the first collision, which leaves out a whole character. -/
theorem collidingMessageComesBackTruncated : Obligations.CollidingMessageComesBackTruncated := by
  intro s j hf hlegal hgood hat hfirst hfits
  obtain ⟨t, hencode, hended, hdecode⟩ := roundTrip hf hlegal hgood hfits
  refine ⟨t, hencode, hended, fun u hu => ?_⟩
  obtain ⟨v, hv, -, hrec⟩ := hdecode u hu
  have hmlen : v.mlen = j / 8 := by rw [hrec.mlen, cutPosition_of_first_collision hat hfirst]
  have hproper : v.mlen < s.mlen := by
    obtain ⟨hend, -, -⟩ := hat
    omega
  exact ⟨v, hv, hrec.ended, hmlen, hproper, hrec.chars⟩

/-- Settles O43: on a legal message the capacity alone decides between ENCODE's two results, and no command ends with
both. -/
theorem capacityBoundaryIsExact : Obligations.CapacityBoundaryIsExact := by
  intro s hf hlegal hgood
  obtain ⟨-, hrun⟩ := encodeHidesTheMessage s
  obtain ⟨t, ht, -, hover, hfits⟩ := hrun hf hlegal
  have hok : 8 * s.mlen + 16 ≤ carriers s → Ended 0#2 s t := fun h => by
    obtain ⟨-, -, -, hended⟩ := hfits hgood h
    exact hended
  have hexceeded : carriers s < 8 * s.mlen + 16 → Ended 1#2 s t := fun h => by
    obtain ⟨-, -, hended⟩ := hover hgood h
    exact hended
  exact ⟨t, ht,
    ⟨fun h => Nat.not_lt.mp fun hx => absurd (h.result_eq (hexceeded hx)) (by decide), hok⟩,
    fun h => Nat.not_le.mp fun hx => absurd (h.result_eq (hok hx)) (by decide), hexceeded⟩

/-- Settles O51: 95 characters pack to 776 bits, and a hundred pixels carry 300. -/
theorem ninetyFiveCharactersDoNotFit : Obligations.NinetyFiveCharactersDoNotFit := by
  intro s hf hwidth hheight hchans hmlen hgood himage hmsg
  have hlegal : OperandsLegal .encode s := ⟨⟨by omega, by omega⟩, hchans, himage, hmsg⟩
  have hcarriers : carriers s = 300 := by rw [carriers, hwidth, hheight]
  obtain ⟨-, hrun⟩ := encodeHidesTheMessage s
  obtain ⟨t, ht, -, hover, -⟩ := hrun hf hlegal
  obtain ⟨hstate, hpacked, hended⟩ := hover hgood (by omega)
  rw [hmlen, hcarriers] at hstate
  exact ⟨t, ht, hended, congrArg State.blen hstate, congrArg State.capacity hstate, hpacked,
    by rw [hstate]⟩

end Sys2Proof.Proofs
end

section
/-! DECODE of any image (44_properties.md R170, R173): the carrying bits decide its result, its stream and its message. -/

namespace Sys2Proof.Claims

open Sys2Proof.Machine

/-- After the decode walk, a sentinel in the bitstream is one among the image's carrying bits. -/
theorem sentinelAt_iff_imageSentinelAt {s t : State} (h : HoldsExtracted s t) (hblen : t.blen = carriers s) (j : Nat) :
    SentinelAt t j ↔ ImageSentinelAt s j := by
  obtain ⟨hread, -⟩ := h
  rw [SentinelAt, ImageSentinelAt, hblen]
  refine and_congr_right fun hj => and_congr (forall₂_congr fun u hu => ?_) ?_
  · rw [hread _ (by omega)]
  · rw [hread _ (by omega)]

/-- A bitstream has a first sentinel or none. -/
theorem firstSentinelAt_or_none (s : State) : (∃ j, FirstSentinelAt s j) ∨ ∀ j, ¬SentinelAt s j := by
  cases hsearch : findSentinel (bitstream s) with
  | some j => exact .inl ⟨j, (firstSentinelAt_iff s j).mpr hsearch⟩
  | none => exact .inr ((no_sentinelAt_iff s).mpr hsearch)

/-- A sentinel at bit 0 is the first. -/
theorem FirstSentinelAt.zero {s : State} (h : SentinelAt s 0) : FirstSentinelAt s 0 :=
  ⟨h, fun i hi => absurd hi (Nat.not_lt_zero i)⟩

/-- A command that ends with a result leaves `FAULT` as it is. -/
theorem Ended.faulted_eq {r : BitVec 2} {s t : State} (h : Ended r s t) : faulted t = faulted s := by
  obtain ⟨-, -, hfault, -⟩ := h
  exact hfault

/-- UNPACK's result, and its message on OK, depend on the bitstream alone. -/
theorem unpackEffect_congr {w w' : State} (h : bitstream w' = bitstream w) :
    resultField (unpackEffect w').status = resultField (unpackEffect w).status ∧
      (resultField (unpackEffect w).status = 0#2 → (unpackEffect w').mlen = (unpackEffect w).mlen ∧
        ∀ i, i < (unpackEffect w).mlen → msgAt (unpackEffect w') i = msgAt (unpackEffect w) i) := by
  cases hsearch : findSentinel (bitstream w) with
  | none =>
    rw [unpackEffect_of_none hsearch, unpackEffect_of_none (h ▸ hsearch)]
    simp only [finish_status, resultField_statusOfResult]
    exact ⟨trivial, fun hok => absurd hok (by decide)⟩
  | some j =>
    rw [unpackEffect_of_some hsearch, unpackEffect_of_some (h ▸ hsearch), h]
    simp only [finish_status, resultField_statusOfResult]
    refine ⟨trivial, fun _ => ⟨rfl, fun i hi => ?_⟩⟩
    have hchar : (charactersOf (j / 8) (bitstream w))[i]? = some _ := List.getElem?_eq_getElem hi
    simp only [msgAt_finish, msgAt_storeMessage, hchar, Option.map_some, Option.getD_some]

end Sys2Proof.Claims

namespace Sys2Proof.Proofs

open Sys2Proof.Machine Sys2Proof.Claims

/-- Settles O49: the walk's stream is the image's carrying bits, and DECODE ends with one of its two results as they hold
a sentinel or not. -/
theorem decodeOfAnyImageNeverFaults : Obligations.DecodeOfAnyImageNeverFaults := by
  intro s hf hlegal
  obtain ⟨-, hrun⟩ := decodeRecoversTheMessage s
  obtain ⟨t, ht, hext, hblen, hnone, hsome⟩ := hrun hf hlegal
  have hno : (∀ j, ¬ImageSentinelAt s j) → Ended 3#2 s t := fun h =>
    (hnone fun j hj => h j ((sentinelAt_iff_imageSentinelAt hext hblen j).mp hj)).2
  have hat : ∀ j, FirstSentinelAt t j → Ended 0#2 s t ∧ t.mlen = j / 8 := fun j hj => by
    obtain ⟨-, ⟨hmlen, -⟩, hended⟩ := hsome j hj
    exact ⟨hended, hmlen⟩
  have hends : Ended 0#2 s t ∨ Ended 3#2 s t := by
    rcases firstSentinelAt_or_none t with ⟨j, hj⟩ | hnot
    · exact .inl (hat j hj).1
    · exact .inr (hnone hnot).2
  refine ⟨t, ht, ?unfaulted, hends, ⟨fun h3 j hj => ?found, hno⟩, fun hpixels hones hzero => ?sixPixels⟩
  case unfaulted =>
    rcases hends with h | h <;> exact h.faulted_eq.trans hf
  case found =>
    have hsentinel := (sentinelAt_iff_imageSentinelAt hext hblen j).mpr hj
    rcases firstSentinelAt_or_none t with ⟨i, hi⟩ | hnot
    · exact absurd (h3.result_eq (hat i hi).1) (by decide)
    · exact hnot j hsentinel
  case sixPixels =>
    have himage : ImageSentinelAt s 0 := by
      refine ⟨by rw [carriers]; omega, fun u hu => ?_, hzero⟩
      rw [Nat.zero_add, hones u hu]
    exact hat 0 (.zero ((sentinelAt_iff_imageSentinelAt hext hblen 0).mpr himage))

/-- Settles O52: DECODE is UNPACK's effect on the carrying bits, and leaves each of them in its own element of `BITS`. -/
theorem onlyCarryingBitsReachTheDecoder : Obligations.OnlyCarryingBitsReachTheDecoder := by
  intro s s' hf hf' hlegal hwidth hheight hchans hparams
  have hlegal' : OperandsLegal .decode s' := by
    simpa only [OperandsLegal, Dimensions, Channels, ImageInDepth, hwidth, hheight, hchans, hparams] using hlegal
  have hcarriers : carriers s' = carriers s := by rw [carriers, hwidth, hheight, carriers]
  obtain ⟨hread, -⟩ := holdsExtracted_decodeEffect s
  obtain ⟨hread', -⟩ := holdsExtracted_decodeEffect s'
  rw [hcarriers] at hread'
  refine ⟨_, _, exec_of_legal hf hlegal, exec_of_legal hf' hlegal', fun hsame => ?alike, fun k hk hdiff => ?differ⟩
  case alike =>
    have hstream : bitstream (extractWalk s') = bitstream (extractWalk s) := by
      rw [bitstream_extractWalk, bitstream_extractWalk, hcarriers]
      exact List.map_congr_left fun k hk => hsame k (List.mem_range.mp hk)
    obtain ⟨hresult, hmessage⟩ := unpackEffect_congr hstream
    exact ⟨hresult, fun k hk => by rw [effectOf, hread k hk, hread' k hk, hsame k hk], hmessage⟩
  case differ =>
    rwa [effectOf, hread k hk, hread' k hk]

end Sys2Proof.Proofs
end

section
/-! "Hi" in a 10 by 10 RGB image (44_properties.md R171). -/

namespace Sys2Proof.Claims

open Sys2Proof.Machine

/-- With three channels every image element carries the bit of its own number. -/
theorem carrier_of_three {s : State} (h : s.chans = 3#3) (k : Nat) : carrier s k = k := by
  have hch : s.chans.toNat = 3 := by rw [h]; rfl
  rw [carrier, hch]
  omega

/-- The one place where "Hi" could hold the sentinel's sixteen bits begins with the 0 of `0x48`. -/
theorem no_collision_hi {s : State} (hmlen : s.mlen = 2) (hH : msgAt s 0 = 0x48#32) (j : Nat) : ¬CollisionAt s j := by
  rintro ⟨hend, hones, -⟩
  obtain rfl : j = 0 := by omega
  have hone := hones 0 (by decide)
  rw [dataBit, hH] at hone
  exact absurd hone (by decide)

end Sys2Proof.Claims

namespace Sys2Proof.Proofs

open Sys2Proof.Machine Sys2Proof.Claims

/-- Settles O50: the round trip of a message without a collision, on an image whose elements carry the bits of their own
numbers. -/
theorem hiScenario : Obligations.HiScenario := by
  intro s hf hwidth hheight hchans hmlen hH hi himage hmsg
  have hcarriers : carriers s = 300 := by rw [carriers, hwidth, hheight]
  have hlegal : OperandsLegal .encode s := ⟨⟨by omega, by omega⟩, .inl hchans, himage, hmsg⟩
  have hgood : LegalMessage s := fun i hlt => by
    rcases (by omega : i = 0 ∨ i = 1) with rfl | rfl
    · rw [hH]; decide
    · rw [hi]; decide
  have hfits : 8 * s.mlen + 16 ≤ carriers s := by omega
  obtain ⟨-, hrun⟩ := encodeHidesTheMessage s
  obtain ⟨t, ht, -, -, hok⟩ := hrun hf hlegal
  obtain ⟨hstate, -, ⟨hcarry, hkeep⟩, hended⟩ := hok hgood hfits
  rw [hmlen, hcarriers] at hstate
  have hblen : t.blen = 32 := congrArg State.blen hstate
  rw [hblen] at hcarry hkeep
  refine ⟨t, ht, hended, hblen, congrArg State.capacity hstate, fun a ha => ?carrying, fun a ha => ?other,
    fun u hu => ?decode⟩
  case carrying =>
    have h := hcarry a ha (by omega)
    rwa [carrier_of_three hchans] at h
  case other =>
    refine hkeep a fun k hk _ => ?_
    rw [carrier_of_three hchans]
    omega
  case decode =>
    obtain ⟨t', ht', -, hdecode⟩ := roundTrip hf hlegal hgood hfits
    obtain rfl := Host.Outcome.next.inj (ht.symm.trans ht')
    obtain ⟨v, hv, hblen, hrec⟩ := hdecode u hu
    obtain ⟨hfirst, hlen, hchars⟩ := hrec.whole (no_collision_hi hmlen hH)
    rw [hmlen] at hfirst hlen hchars
    exact ⟨v, hv, hrec.ended, hblen.trans hcarriers, hfirst, hlen, (hchars 0 (by decide)).trans hH,
      (hchars 1 (by decide)).trans hi⟩

end Sys2Proof.Proofs
end

section
/-! Encoding over an encoded image (44_properties.md R174). -/

namespace Sys2Proof.Claims

open Sys2Proof.Machine

/-- Embedding the bits that the image carries already changes nothing (42_insert_encode.md R124). -/
theorem imgAt_of_holdsEmbedded_lsb {s t : State} (h : HoldsEmbedded s t)
    (hbits : ∀ k, k < t.blen → bitsAt t k = lsb s k) (a : Nat) : imgAt t a = imgAt s a := by
  rcases imgAt_of_holdsEmbedded h a with hsame | ⟨k, hk, rfl, hins⟩
  · exact hsame
  · rw [hins, hbits k hk, lsb, insCh_bitAt]

/-- Cores that hold the same bitstream hold its length and each of its elements. -/
theorem blen_and_bitsAt_of_bitstream_eq {s t : State} (h : bitstream s = bitstream t) :
    s.blen = t.blen ∧ ∀ k, k < t.blen → bitsAt s k = bitsAt t k := by
  have hblen : s.blen = t.blen := by rw [← length_bitstream s, h, length_bitstream]
  refine ⟨hblen, fun k hk => Option.some.inj ?_⟩
  rw [← getElem?_bitstream s (by omega), h, getElem?_bitstream t hk]

/-- ENCODE leaves its own operands: the geometry, the sizes and the message (42_insert_encode.md R131). -/
theorem operands_encodeEffect {s : State} (hlegal : OperandsLegal .encode s) (hgood : LegalMessage s)
    (hfits : 8 * s.mlen + 16 ≤ carriers s) :
    OperandsLegal .encode (encodeEffect s) ∧ LegalMessage (encodeEffect s) ∧ message (encodeEffect s) = message s
      ∧ 8 * (encodeEffect s).mlen + 16 ≤ carriers (encodeEffect s) := by
  rw [encodeEffect_of_fits hgood hfits]
  exact ⟨hlegal, hgood, rfl, hfits⟩

/-- ENCODE, run again, embeds the bits that it left in the image. -/
theorem imgAt_encodeEffect_encodeEffect {s : State} (hlegal : OperandsLegal .encode s) (hgood : LegalMessage s)
    (hfits : 8 * s.mlen + 16 ≤ carriers s) (a : Nat) :
    imgAt (encodeEffect (encodeEffect s)) a = imgAt (encodeEffect s) a := by
  obtain ⟨hlegal', hgood', hmessage, hfits'⟩ := operands_encodeEffect hlegal hgood hfits
  obtain ⟨-, hchans, -, -⟩ := hlegal
  obtain ⟨-, hchans', -, -⟩ := hlegal'
  have hemb := embedded_encodeEffect_of_fits hchans hgood hfits
  have hemb' := embedded_encodeEffect_of_fits hchans' hgood' hfits'
  have hstream : bitstream (encodeEffect (encodeEffect s)) = bitstream (encodeEffect s) := by
    rw [bitstream_encodeEffect hgood' hfits', hmessage, bitstream_encodeEffect hgood hfits]
  obtain ⟨hblen, hbits⟩ := blen_and_bitsAt_of_bitstream_eq hstream
  refine imgAt_of_holdsEmbedded_lsb hemb'.image (fun k hk => ?_) a
  rw [hblen] at hk
  rw [hbits k hk, lsb_of_embedded_lt hemb hk]

/-- ENCODE ends with OK only if the packed message fits. -/
theorem fits_of_encodeEffect_ok {s : State} (h : resultField (encodeEffect s).status = 0#2) :
    8 * s.mlen + 16 ≤ carriers s := by
  rw [encodeEffect_of_legal (legalMessage_of_encodeEffect_ok h)] at h
  have := le_carriers_of_embedEffect_ok h
  rwa [packed_blen] at this

end Sys2Proof.Claims

namespace Sys2Proof.Proofs

open Sys2Proof.Machine Sys2Proof.Claims

/-- Settles O54: the second ENCODE embeds the bits that stand in the image already; another message makes the round trip
over any image. -/
theorem reEncodingKeepsOrReplaces : Obligations.ReEncodingKeepsOrReplaces := by
  refine ⟨fun s t hf hexec ht hok => ?keeps, fun s t s' hf hexec ht hok hs' hmsg hgood hno hfits => ?replaces⟩
  case keeps =>
    obtain ⟨hlegal, rfl⟩ := legal_of_unfaulted hf hexec ht
    have hgood := legalMessage_of_encodeEffect_ok hok
    have hfits := fits_of_encodeEffect_ok hok
    obtain ⟨hlegal', hgood', -, hfits'⟩ := operands_encodeEffect hlegal hgood hfits
    exact ⟨_, exec_of_legal ht hlegal', ended_of_status (r := .ok) (status_encodeEffect hgood' hfits'),
      imgAt_encodeEffect_encodeEffect hlegal hgood hfits⟩
  case replaces =>
    obtain ⟨hlegal, hemb⟩ := embedded_of_ok (.inr rfl) hf hexec ht hok
    obtain ⟨hdims, hchans, himage⟩ := operandsLegal_extract_of_sameImage hemb hs' hlegal
    have ⟨_, _, _, _, _, hf'⟩ := hs'
    obtain ⟨t', ht', hended, hdecode⟩ := roundTrip hf' ⟨hdims, hchans, himage, hmsg⟩ hgood hfits
    refine ⟨t', ht', hended, fun u hu => ?_⟩
    obtain ⟨v, hv, -, hrec⟩ := hdecode u hu
    exact ⟨v, hv, hrec.ended, hrec.whole hno⟩

end Sys2Proof.Proofs
end

section
/-! The check table (60_exceptions.md R187): a command that passes its checks completes, and the checks against a depth
cannot fail where there is none. -/

namespace Sys2Proof.Claims

open Sys2Proof.Machine

/-- A command's effect leaves `FAULT` as it is (60_exceptions.md R184). -/
theorem faulted_effectOf (i : Instr) (s : State) : faulted (effectOf i s) = faulted s := by
  obtain ⟨r, hr⟩ := effectOf_status i s
  rw [faulted, hr, faultField_statusOfResult, faulted]

/-- A command's effect sets `DONE` (60_exceptions.md R184). -/
theorem doneField_effectOf (i : Instr) (s : State) : doneField (effectOf i s).status = true := by
  obtain ⟨r, hr⟩ := effectOf_status i s
  rw [hr, doneField_statusOfResult]

end Sys2Proof.Claims

namespace Sys2Proof.Proofs

open Sys2Proof.Machine Sys2Proof.Claims

/-- Settles O14: legal operands lead to the command's effect, which completes without a fault, others to fault entry. -/
theorem badConfigIsTheCheckTable : Obligations.BadConfigIsTheCheckTable := by
  refine ⟨fun i s hf => ⟨fun hlegal => ?completes, ?faults⟩, fun s hunbounded => ?depths⟩
  case completes =>
    exact ⟨_, exec_of_legal hf hlegal, (faulted_effectOf i s).trans hf, doneField_effectOf i s⟩
  case faults =>
    obtain ⟨-, hguard⟩ := startsGuarded i s
    exact hguard hf
  case depths =>
    have hnone : ∀ b, s.params.maxBits ≠ some b := by simp [hunbounded]
    exact ⟨fun b hb => absurd hb (hnone b), fun b hb => absurd hb (hnone b), fun b hb => absurd hb (hnone b)⟩

end Sys2Proof.Proofs
end

section
/-! Fault entry (60_exceptions.md R186 to R188): only a write to `CMD` raises a fault, and it does nothing else then. -/

namespace Sys2Proof.Claims

open Sys2Proof.Machine

/-- No transaction but a write to `CMD` and `Reset` writes `STATUS` (10_state.md R21, R37). -/
theorem status_of_transact {x : HostTxn} {s t : State} (h : transact x s = .next t) (hcmd : ∀ w, x ≠ .regWrite 0 w)
    (hreset : x ≠ .reset) : t.status = s.status := by
  rcases transact_cases h with ⟨_, _, -, -, rfl⟩ | ⟨w, hx, -⟩ | ⟨n, v, _, -, -, -, -, rfl⟩ | ⟨_, _, -, -, rfl⟩ |
    ⟨sp, a, v, -, -, -, rfl⟩ | ⟨hx, -⟩
  · rfl
  · exact absurd hx (hcmd w)
  · exact writeReg_status n v s
  · rfl
  · exact writeElement_status sp a v s
  · exact absurd hx hreset

/-- A write to `CMD` that answers is the command port's, on a word of 8 bits. -/
theorem command_of_transact {w : Nat} {s t : State} (h : transact (.regWrite 0 w) s = .next t) :
    w < 256 ∧ command (BitVec.ofNat 8 w) s = .next t := by
  have hw : w < 256 := by
    by_contra hwide
    simp [transact, regWrite, regWidth, fitsWidth, hwide] at h
  exact ⟨hw, (transact_command hw s).symm.trans h⟩

/-- A write to `CMD` that faults the core is fault entry (60_exceptions.md R188). -/
theorem raiseFault_of_command {w : Byte} {s t : State} (h : command w s = .next t) (hf : faulted s = false)
    (ht : faulted t = true) : ∃ c, t = raiseFault c s := by
  rcases command_cases h with ⟨-, rfl⟩ | ⟨-, -, rfl⟩ | ⟨-, _, -, -, rfl⟩ | ⟨-, i, -, -, rfl⟩
  · exact absurd (ht.symm.trans hf) (by decide)
  · exact ⟨_, rfl⟩
  · exact ⟨_, rfl⟩
  · exact absurd (ht.symm.trans ((faulted_effectOf i s).trans hf)) (by decide)

/-- `Reset` clears `FAULT` (60_exceptions.md R189). -/
@[simp] theorem faulted_resetRegisters (s : State) : faulted (resetRegisters s) = false := by
  rw [faulted, resetRegisters_status]
  decide

/-- A transaction that faults the core is fault entry by a write to `CMD`. -/
theorem raiseFault_of_transact {x : HostTxn} {s t : State} (h : transact x s = .next t) (hf : faulted s = false)
    (ht : faulted t = true) : ∃ w c, x = .regWrite 0 w ∧ t = raiseFault c s := by
  by_cases hcmd : ∃ w, x = .regWrite 0 w
  · obtain ⟨w, rfl⟩ := hcmd
    obtain ⟨-, hcommand⟩ := command_of_transact h
    obtain ⟨c, hc⟩ := raiseFault_of_command hcommand hf ht
    exact ⟨w, c, rfl, hc⟩
  · have hreset : x ≠ .reset := by
      rintro rfl
      cases h
      exact absurd (ht.symm.trans (faulted_resetRegisters s)) (by decide)
    have hkept : faulted t = faulted s :=
      congrArg faultField (status_of_transact h (fun w hx => hcmd ⟨w, hx⟩) hreset)
    exact absurd (ht.symm.trans (hkept.trans hf)) (by decide)

/-- The two causes of faults (60_exceptions.md R180). -/
theorem causeCode_eq (c : FaultCause) : causeCode c = 1#2 ∨ causeCode c = 2#2 := by
  cases c
  · exact .inl rfl
  · exact .inr rfl

end Sys2Proof.Claims

namespace Sys2Proof.Proofs

open Sys2Proof.Machine Sys2Proof.Claims

/-- Settles O15: an idle core raises no fault, and a transaction that does is fault entry by a write to `CMD`. -/
theorem faultEntryWritesOnlyTheFaultFields : Obligations.FaultEntryWritesOnlyTheFaultFields := by
  intro s t h hf ht
  cases hhost : s.host with
  | nil =>
    rw [step_of_idle hhost] at h
    cases h
    exact absurd (ht.symm.trans hf) (by decide)
  | cons x rest =>
    rw [step_of_pending hhost] at h
    obtain ⟨w, c, rfl, rfl⟩ := raiseFault_of_transact h hf ht
    exact ⟨w, rest, causeCode c, rfl, causeCode_eq c, faultTaken_raiseFault c (taken s rest)⟩

end Sys2Proof.Proofs
end

section
/-! A faulted core (60_exceptions.md R189): writes to `CMD` are ignored, and what the host otherwise reads and writes does
not depend on `STATUS`. -/

namespace Sys2Proof.Claims

open Sys2Proof.Machine

/-- A step that writes a word to `CMD` is the command port's. -/
theorem step_of_commandWrite {s : State} {w : Nat} {rest : List HostTxn} (h : s.host = .regWrite 0 w :: rest)
    (hw : w < 256) : step s = command (BitVec.ofNat 8 w) (taken s rest) :=
  (step_of_pending h).trans (transact_command hw _)

/-- The command port of a faulted core ignores every word. -/
theorem command_of_faulted {w : Byte} {s : State} (hf : faulted s = true) : command w s = .next s := by
  rw [command, if_pos hf]

/-- On a faulted core no transaction but `Reset` writes `STATUS`. -/
theorem status_of_transact_faulted {x : HostTxn} {s t : State} (hf : faulted s = true) (h : transact x s = .next t)
    (hreset : x ≠ .reset) : t.status = s.status := by
  by_cases hcmd : ∃ w, x = .regWrite 0 w
  · obtain ⟨w, rfl⟩ := hcmd
    obtain ⟨-, hcommand⟩ := command_of_transact h
    rw [command_of_faulted hf] at hcommand
    cases hcommand
    rfl
  · exact status_of_transact h (fun w hx => hcmd ⟨w, hx⟩) hreset

/-- `s` with another value in `STATUS`. -/
def withStatus (st : BitVec 8) (s : State) : State := { s with status := st }

@[simp] theorem withStatus_params (st : BitVec 8) (s : State) : (withStatus st s).params = s.params := rfl

/-- An outcome with another value in `STATUS` of its next state; a stop stays the same stop. -/
def outcomeWithStatus (st : BitVec 8) : Host.Outcome State Fault Refusal → Host.Outcome State Fault Refusal
  | .next s => .next (withStatus st s)
  | .fault r => .fault r
  | .refused r => .refused r

/-- `STATUS` is read through register 1 only. -/
theorem readReg_withStatus {n : Nat} (hn : n ≠ 1) (st : BitVec 8) (s : State) :
    readReg n (withStatus st s) = readReg n s := by
  unfold readReg
  split
  case h_2 => exact absurd rfl hn
  all_goals rfl

/-- A register write neither reads nor writes `STATUS`. -/
theorem writeReg_withStatus (n v : Nat) (st : BitVec 8) (s : State) :
    writeReg n v (withStatus st s) = withStatus st (writeReg n v s) := by
  unfold writeReg
  split <;> rfl

theorem elementAt_withStatus (sp : Space) (a : Nat) (st : BitVec 8) (s : State) :
    elementAt sp a (withStatus st s) = elementAt sp a s := by
  cases sp <;> rfl

/-- A memory write neither reads nor writes `STATUS`. -/
theorem writeElement_withStatus (sp : Space) (a v : Nat) (st : BitVec 8) (s : State) :
    writeElement sp a v (withStatus st s) = withStatus st (writeElement sp a v s) := by
  cases sp <;> rfl

/-- Every transaction but a write to `CMD`, a read of `STATUS` and `Reset` commutes with changing `STATUS`. -/
theorem transact_withStatus {x : HostTxn} (hcmd : ∀ w, x ≠ .regWrite 0 w) (hread : x ≠ .regRead 1)
    (hreset : x ≠ .reset) (st : BitVec 8) (s : State) :
    transact x (withStatus st s) = outcomeWithStatus st (transact x s) := by
  cases x with
  | regRead n =>
    have hn : n ≠ 1 := fun h => hread (h ▸ rfl)
    rw [transact, regRead, readReg_withStatus hn, transact, regRead]
    split <;> rfl
  | regWrite n v =>
    have hn : n ≠ 0 := fun h => hcmd v (h ▸ rfl)
    simp only [transact, regWrite, if_neg hn, writeReg_withStatus, withStatus_params]
    cases regWidth s.params n with
    | none => rfl
    | some w =>
      dsimp only
      split <;> rfl
  | memRead sp a =>
    simp only [transact, memRead, elementAt_withStatus, withStatus_params]
    split <;> rfl
  | memWrite sp a v =>
    simp only [transact, memWrite, writeElement_withStatus, withStatus_params]
    split
    · split <;> rfl
    · rfl
  | reset => exact absurd rfl hreset

/-- Either both outcomes are next states that differ in `STATUS` only, or both are stops. -/
theorem outcomeWithStatus_cases {o o' : Host.Outcome State Fault Refusal} {st : BitVec 8}
    (h : o' = outcomeWithStatus st o) :
    (∃ u, o = .next u ∧ o' = .next (withStatus st u)) ∨ ∀ u, o ≠ .next u ∧ o' ≠ .next u := by
  subst h
  cases o with
  | next u => exact .inl ⟨u, rfl, rfl⟩
  | fault r => exact .inr fun u => ⟨nofun, nofun⟩
  | refused r => exact .inr fun u => ⟨nofun, nofun⟩

end Sys2Proof.Claims

namespace Sys2Proof.Proofs

open Sys2Proof.Machine Sys2Proof.Claims

/-- Settles O16: the command port ignores every word, `Reset` alone writes `STATUS`, and the other transactions commute
with changing it. -/
theorem faultedCoreIgnoresCommands : Obligations.FaultedCoreIgnoresCommands := by
  intro s x rest hhost hf
  have hstep : step s = transact x (taken s rest) := step_of_pending hhost
  refine ⟨?ignored, fun t hreset h => ?kept, ?reset, fun st hcmd hread hreset => ?served⟩
  case ignored =>
    rintro w rfl hw
    rw [step_of_commandWrite hhost hw]
    exact command_of_faulted (s := taken s rest) hf
  case kept => exact status_of_transact_faulted (s := taken s rest) hf (hstep.symm.trans h) hreset
  case reset =>
    rintro rfl
    exact ⟨_, hstep, faulted_resetRegisters (taken s rest)⟩
  case served =>
    have hstep' : step (withStatus st s) = transact x (withStatus st (taken s rest)) := step_of_pending hhost
    have hcommutes : step (withStatus st s) = outcomeWithStatus st (step s) := by
      rw [hstep', hstep, transact_withStatus hcmd hread hreset]
    exact outcomeWithStatus_cases hcommutes

end Sys2Proof.Proofs
end

section
/-! What a command on legal operands reports, the first that applies of the four results (60_exceptions.md R181 to R183,
R190). -/

namespace Sys2Proof.Claims

open Sys2Proof.Machine

/-- The command port on a command's word. -/
theorem command_of_commandWord (i : Instr) (s : State) : command (commandWord i) s = exec i s := by
  rw [command, (decode_eq_ok_iff _ i).mpr rfl]
  split
  case isTrue hf => exact (exec_of_faulted hf).symm
  case isFalse => rfl

/-- CHKCAP of a bitstream above the capacity. -/
theorem chkcapEffect_of_lt {s : State} (h : carriers s < s.blen) :
    chkcapEffect s = finish .capacityExceeded { s with capacity := carriers s } := by
  rw [chkcapEffect, if_pos ((capacityExceeded_iff_carriers s).mpr h), writeCapacity_eq]

/-- CHKCAP of a bitstream that fits. -/
theorem chkcapEffect_of_le {s : State} (h : s.blen ≤ carriers s) :
    chkcapEffect s = finish .ok { s with capacity := carriers s } := by
  rw [chkcapEffect, if_neg fun hx => Nat.not_lt.mpr h ((capacityExceeded_iff_carriers s).mp hx), writeCapacity_eq]

/-- The image's carrying bits have no sentinel exactly when the search finds none in the decode walk's stream. -/
theorem no_imageSentinelAt_iff (s : State) :
    (∀ j, ¬ImageSentinelAt s j) ↔ findSentinel (bitstream (extractWalk s)) = none := by
  rw [← no_sentinelAt_iff]
  exact forall_congr' fun j => not_congr
    (sentinelAt_iff_imageSentinelAt (holdsExtracted_extractWalk s) (extractWalk_blen s) j).symm

/-- UNPACK of a bitstream with a sentinel ends with OK. -/
theorem status_unpackEffect {s : State} (h : findSentinel (bitstream s) ≠ none) :
    (unpackEffect s).status = statusOfResult .ok s.status := by
  obtain ⟨j, hj⟩ := Option.ne_none_iff_exists'.mp h
  rw [unpackEffect_of_some hj, finish_status, storeMessage_status]

/-- PACK and ENCODE find a bad character, or the message is legal. -/
theorem legalMessage_of_not_badCharacter {i : Instr} {s : State} (hi : i = .pack ∨ i = .encode)
    (h : ¬BadCharacter i s) : LegalMessage s := not_not.mp fun hbad => h ⟨hi, hbad⟩

/-- CHKCAP and EMBED find the bitstream too long, or it fits. -/
theorem blen_le_of_not_tooLong {i : Instr} {s : State} (hi : i = .chkcap ∨ i = .embed) (h : ¬TooLong i s) :
    s.blen ≤ carriers s := Nat.not_lt.mp fun hover => h (.inl ⟨hi, hover⟩)

/-- InvalidCharacter: nothing is written (60_exceptions.md R182). -/
theorem effectOf_of_badCharacter {i : Instr} {s : State} (h : BadCharacter i s) :
    effectOf i s = finish .invalidCharacter s := by
  obtain ⟨rfl | rfl, hbad⟩ := h
  · exact packEffect_of_illegal hbad
  · exact encodeEffect_of_illegal hbad

/-- CapacityExceeded: `CAPACITY` is written and the image kept (60_exceptions.md R181). -/
theorem effectOf_of_tooLong {i : Instr} {s : State} (hchars : ¬BadCharacter i s) (h : TooLong i s) :
    Ended 1#2 s (effectOf i s) ∧ (effectOf i s).capacity = carriers s ∧ (effectOf i s).img = s.img := by
  obtain ⟨rfl | rfl, hover⟩ | ⟨rfl, hover⟩ := h
  · rw [effectOf, chkcapEffect_of_lt hover]
    exact ⟨ended_of_status (r := .capacityExceeded) rfl, rfl, rfl⟩
  · rw [effectOf, embedEffect_of_lt hover]
    exact ⟨ended_of_status (r := .capacityExceeded) rfl, rfl, rfl⟩
  · have hgood := legalMessage_of_not_badCharacter (.inr rfl) hchars
    rw [← packed_blen] at hover
    rw [effectOf, encodeEffect_of_legal hgood, embedEffect_of_lt (s := packed s) hover]
    exact ⟨ended_of_status (r := .capacityExceeded) rfl, rfl, rfl⟩

/-- SentinelNotFound: the message is kept, and DECODE leaves the stream it searched (60_exceptions.md R183). -/
theorem effectOf_of_noSentinel {i : Instr} {s : State} (h : NoSentinel i s) :
    Ended 3#2 s (effectOf i s) ∧ (effectOf i s).msg = s.msg ∧ (effectOf i s).mlen = s.mlen ∧
      (i = .decode → (effectOf i s).blen = carriers s ∧ HoldsExtracted s (effectOf i s)) := by
  obtain ⟨rfl, hno⟩ | ⟨rfl, hno⟩ := h
  · rw [effectOf, unpackEffect_of_none ((no_sentinelAt_iff s).mp hno)]
    exact ⟨ended_of_status (r := .sentinelNotFound) rfl, rfl, rfl, nofun⟩
  · have heffect : decodeEffect s = finish .sentinelNotFound (extractWalk s) :=
      unpackEffect_of_none ((no_imageSentinelAt_iff s).mp hno)
    have hkept : (decodeEffect s).msg = s.msg ∧ (decodeEffect s).mlen = s.mlen := by
      rw [heffect]
      exact ⟨rfl, rfl⟩
    obtain ⟨hmsg, hmlen⟩ := hkept
    exact ⟨ended_of_status (r := .sentinelNotFound) (congrArg State.status heffect), hmsg, hmlen,
      fun _ => ⟨decodeEffect_blen s, holdsExtracted_decodeEffect s⟩⟩

/-- OK: what is left when no error result applies (60_exceptions.md R190). -/
theorem status_effectOf_of_ok {i : Instr} {s : State} (hchars : ¬BadCharacter i s) (hfits : ¬TooLong i s)
    (hsentinel : ¬NoSentinel i s) : (effectOf i s).status = statusOfResult .ok s.status := by
  cases i with
  | chkcap =>
    rw [effectOf, chkcapEffect_of_le (blen_le_of_not_tooLong (.inl rfl) hfits), finish_status]
  | pack =>
    rw [effectOf, packEffect_of_legal (legalMessage_of_not_badCharacter (.inl rfl) hchars), finish_status,
      storeBitstream_status]
  | unpack => exact status_unpackEffect fun hno => hsentinel (.inl ⟨rfl, (no_sentinelAt_iff s).mpr hno⟩)
  | embed =>
    rw [effectOf, embedEffect_of_le (blen_le_of_not_tooLong (.inr rfl) hfits), finish_status, embedWalk_status]
  | extract => rfl
  | encode =>
    have hgood := legalMessage_of_not_badCharacter (.inr rfl) hchars
    exact status_encodeEffect hgood (Nat.not_lt.mp fun hover => hfits (.inr ⟨rfl, hover⟩))
  | decode => exact status_unpackEffect fun hno => hsentinel (.inr ⟨rfl, (no_imageSentinelAt_iff s).mpr hno⟩)

end Sys2Proof.Claims

namespace Sys2Proof.Proofs

open Sys2Proof.Machine Sys2Proof.Claims

/-- Settles O18: a faulted core ignores the word, a word of no row is fault entry, and so is an illegal operand; otherwise
the next state is the command's effect, whose result is the first that applies. -/
theorem outcomesInPriorityOrder : Obligations.OutcomesInPriorityOrder := by
  intro s w rest hhost hw
  obtain ⟨t, ht⟩ := command_answers (BitVec.ofNat 8 w) (taken s rest)
  have hstep : step s = .next t := (step_of_commandWrite hhost hw).trans ht
  refine ⟨t, hstep, fun hf => ?ignored, fun hf hill => ?illegalCommand, fun i hi hf => ?command⟩
  case ignored => exact Host.Outcome.next.inj (ht.symm.trans (command_of_faulted (s := taken s rest) hf))
  case illegalCommand =>
    obtain rfl := Host.Outcome.next.inj (hstep.symm.trans (step_of_illegalWord hhost hw hill hf))
    exact faultTaken_raiseFault .illegalCommand _
  case command =>
    have hexec : exec i (taken s rest) = .next t := by
      rw [← command_of_commandWord, ← ht, hi, BitVec.ofNat_toNat, BitVec.setWidth_eq]
    have heffect : OperandsLegal i s → t = effectOf i (taken s rest) := fun hlegal =>
      Host.Outcome.next.inj (hexec.symm.trans (exec_of_legal (s := taken s rest) hf hlegal))
    refine ⟨fun hbad => ?badConfig, fun hlegal hchar => ?invalidCharacter, fun hlegal hchars hover => ?capacityExceeded,
      fun hlegal hno => ?sentinelNotFound, fun hlegal hchars hfits hsentinel => ?ok⟩
    case badConfig =>
      obtain ⟨-, hguard⟩ := startsGuarded i (taken s rest)
      obtain ⟨u, hu, hfault⟩ := hguard hf hbad
      obtain rfl := Host.Outcome.next.inj (hexec.symm.trans hu)
      exact hfault
    case invalidCharacter =>
      have hfinish := effectOf_of_badCharacter (s := taken s rest) hchar
      rw [heffect hlegal, hfinish]
      exact ⟨ended_of_status (r := .invalidCharacter) rfl, rfl⟩
    case capacityExceeded =>
      rw [heffect hlegal]
      exact effectOf_of_tooLong (s := taken s rest) hchars hover
    case sentinelNotFound =>
      rw [heffect hlegal]
      exact effectOf_of_noSentinel (s := taken s rest) hno
    case ok =>
      rw [heffect hlegal]
      exact ended_of_status (status_effectOf_of_ok (s := taken s rest) hchars hfits hsentinel)

end Sys2Proof.Proofs
end

section
/-! `Reset` (70_reset_and_hazards.md R210): the registers after it, whose values power-up gives too, and the memories it
does not touch. -/

namespace Sys2Proof.Claims

open Sys2Proof.Machine

/-- A step that performs `Reset` is `resetRegisters` of the state with the transaction taken off. -/
theorem step_of_reset {s : State} {rest : List HostTxn} (h : s.host = .reset :: rest) :
    step s = .next (resetRegisters (taken s rest)) :=
  step_of_pending h

/-- A core with nothing further pending is reset to the power-up state, but for the memories and the sizes. -/
theorem resetRegisters_taken_nil (s : State) :
    resetRegisters (taken s [])
      = { State.reset with img := s.img, msg := s.msg, bits := s.bits, params := s.params } := rfl

end Sys2Proof.Claims

namespace Sys2Proof.Proofs

open Sys2Proof.Machine Sys2Proof.Claims

/-- Settles O10: one `Reset` is one `resetRegisters`; the read of the constant `SENTINEL` behind it is a register read
like any other, and with nothing behind it the power-up registers are left. -/
theorem resetClearsRegistersKeepsMemories : Obligations.ResetClearsRegistersKeepsMemories := by
  refine ⟨fun s rest h => ?registers, fun s rest h => ?sentinel, fun s h => ?powerUp⟩
  case registers => exact step_of_reset h
  case sentinel => exact ⟨_, step_of_reset h, step_of_regRead (resetRegisters_host _) rfl⟩
  case powerUp => exact ⟨_, step_of_reset h, resetRegisters_taken_nil s⟩

end Sys2Proof.Proofs
end

section
/-! The state invariant (10_state.md R23, R27, R29, R33, 20_memory.md R62): it holds after power-up, each named update of
the state keeps it where its operands are legal, and every step is made of these updates. -/

namespace Sys2Proof.Claims

open Sys2Proof.Machine

/-- An address is below its memory's depth exactly when a host read of it is part of the interface (10_state.md R33). -/
theorem below_depth_iff (P : Config.Params) (sp : Space) (a : Nat) :
    below a (depth P sp) = true ↔ InInterface P (.memRead sp a) := by
  rw [below_iff]
  cases sp <;> simp [depth, maxPix, maxMsg, InInterface]

/-- `LENW` holds every length up to `MAXBITS` (00_scope.md R8). -/
theorem fitsWidth_lenw {P : Config.Params} {n : Nat} (hwf : P.wf = true) (hn : ∀ b, P.maxBits = some b → n ≤ b) :
    fitsWidth P.lenw n = true := by
  simp only [Config.Params.wf, Bool.and_eq_true] at hwf
  obtain ⟨-, hlenw⟩ := hwf
  refine (fitsWidth_iff _ n).mpr fun l hl => ?_
  cases hb : P.maxBits with
  | none => simp [Config.Params.lenwOk, hl, hb] at hlenw
  | some b =>
    have hbl : b < 2 ^ l := by simpa [Config.Params.lenwOk, hl, hb] using hlenw
    exact (hn b hb).trans_lt hbl

/-- `3 * WIDTH * HEIGHT` fits the `2*DIMW + 2` bits of `CAPACITY` (10_state.md R27, 40_capacity.md R93). -/
theorem fitsWidth_capacity {P : Config.Params} {w h : Nat} (hw : fitsWidth P.dimw w = true)
    (hh : fitsWidth P.dimw h = true) : fitsWidth (capacityWidth P) (w * h * 3) = true := by
  rw [fitsWidth_iff] at hw hh
  refine (fitsWidth_iff _ _).mpr (fits_capacityWidth fun d hd => ?_)
  have hmul : w * h < 2 ^ d * 2 ^ d := Nat.mul_lt_mul'' (hw d hd) (hh d hd)
  have hpow : 2 ^ (2 * d + 2) = 2 ^ d * 2 ^ d * 4 := by rw [Nat.pow_add, Nat.two_mul, Nat.pow_add]
  omega

/-- A result leaves `STATUS` on its values: it sets `DONE` and keeps the reserved bits and the fault fields. -/
theorem statusWf_statusOfResult (r : Result) {st : BitVec 8} (h : statusWf st = true) :
    statusWf (statusOfResult r st) = true := by
  simp only [statusWf, Bool.and_eq_true] at h ⊢
  obtain ⟨hkept, -⟩ := h
  exact ⟨by simpa using hkept, by simp⟩

/-- A fault leaves `STATUS` on its values: its cause is 1 or 2, and it keeps the reserved bits, `RESULT` and `DONE`. -/
theorem statusWf_statusOfFault (c : FaultCause) {st : BitVec 8} (h : statusWf st = true) :
    statusWf (statusOfFault c st) = true := by
  simp only [statusWf, Bool.and_eq_true] at h ⊢
  obtain ⟨⟨⟨hreserved, -⟩, -⟩, hresult⟩ := h
  refine ⟨⟨⟨by simpa using hreserved, ?cause⟩, ?together⟩, by simpa using hresult⟩
  case cause => rcases causeCode_eq c with hc | hc <;> simp [hc]
  case together => rcases causeCode_eq c with hc | hc <;> simp [hc]

/-! The updates of a state that keep the invariant. -/

theorem inv_reset : State.reset.Inv := by
  obtain ⟨himg, hmsg, hbits⟩ := reset_memories_wf
  exact ⟨rfl, rfl, rfl, rfl, rfl, rfl, by decide, himg, hmsg, hbits, rfl, rfl, rfl⟩

section
variable {s : State} (hinv : s.Inv)
include hinv

/-- The model's own fields `host` and `reply` are no part of the invariant. -/
theorem inv_withHostReply (rest : List HostTxn) (r : Option Nat) : { s with host := rest, reply := r }.Inv :=
  { hinv with }

theorem inv_finish (r : Result) : (finish r s).Inv :=
  { hinv with status := statusWf_statusOfResult r hinv.status }

theorem inv_raiseFault (c : FaultCause) : (raiseFault c s).Inv :=
  { hinv with status := statusWf_statusOfFault c hinv.status }

theorem inv_resetRegisters : (resetRegisters s).Inv :=
  { hinv with
    width := (fitsWidth_iff _ _).mpr fun n _ => n.two_pow_pos
    height := (fitsWidth_iff _ _).mpr fun n _ => n.two_pow_pos
    mlen := (fitsWidth_iff _ _).mpr fun n _ => n.two_pow_pos
    blen := (fitsWidth_iff _ _).mpr fun n _ => n.two_pow_pos
    capacity := (fitsWidth_iff _ _).mpr fun n _ => n.two_pow_pos
    status := inv_reset.status }

theorem inv_writeCapacity : (writeCapacity s).Inv :=
  { hinv with capacity := fitsWidth_capacity hinv.width hinv.height }

/-- A stream that fits `BITS` lies inside it, and its length fits `BLEN`. -/
theorem inv_storeBitstream {r : List Bit} (hr : BitstreamInDepth (storeBitstream r s)) : (storeBitstream r s).Inv :=
  { hinv with
    blen := fitsWidth_lenw hinv.params hr
    bitsWf := memory_wf_writeAll r 0 hinv.bitsWf
    bitsWithin := memory_within_writeAll r 0 (fun i hi => (below_depth_iff _ .bits _).mpr fun b hb => by
      have := hr b hb
      rw [storeBitstream_blen] at this
      omega) hinv.bitsWithin }

/-- A message that fits `MSG` lies inside it, and its length fits `MLEN`. -/
theorem inv_storeMessage {r : List Byte} (hr : MessageInDepth (storeMessage r s)) : (storeMessage r s).Inv :=
  { hinv with
    mlen := fitsWidth_lenw hinv.params fun b hb => (hr b hb).trans (by omega)
    msgWf := memory_wf_writeAll _ 0 hinv.msgWf
    msgWithin := memory_within_writeAll _ 0 (fun i hi => (below_depth_iff _ .msg _).mpr fun b hb => by
      have := hr b hb
      rw [storeMessage_mlen] at this
      rw [List.length_map] at hi
      omega) hinv.msgWithin }

/-- The encode walk of an image that fits `IMG` writes inside it: a pixel has at most four elements. -/
theorem inv_embedWalk (L : Nat) (hch : Channels s) (himage : ImageInDepth s) : (embedWalk L s).Inv := by
  have hfour : s.chans.toNat ≤ 4 := by rcases hch with h | h <;> rw [h] <;> decide
  have hbelow : ∀ k, k < 3 * pixelCount s → below (carrierAddr s k) (depth s.params .img) = true := fun k hk =>
    (below_depth_iff _ .img _).mpr fun b hb =>
      calc carrierAddr s k < pixelCount s * s.chans.toNat := carrierAddr_lt s (chans_ge hch) hk
        _ ≤ b / 3 * 4 := Nat.mul_le_mul (himage b hb) hfour
  refine { hinv with imgWf := ?wf, imgWithin := ?within }
  case wf => rw [embedWalk_img]; exact embedVisits_wf s L _ hinv.imgWf
  case within => rw [embedWalk_img]; exact embedVisits_within s L _ hbelow hinv.imgWithin

/-- The decode walk of an image that fits `IMG` writes inside `BITS`. -/
theorem inv_extractWalk (himage : ImageInDepth s) : (extractWalk s).Inv := by
  have hfits : ∀ b, s.params.maxBits = some b → 3 * pixelCount s ≤ b := fun b hb => carriers_le_maxBits himage hb
  refine { hinv with blen := ?blen, bitsWf := ?wf, bitsWithin := ?within }
  case blen => rw [extractWalk_blen]; exact fitsWidth_lenw hinv.params hfits
  case wf => rw [extractWalk_bits]; exact extractVisits_wf s _ hinv.bitsWf
  case within =>
    rw [extractWalk_bits]
    exact extractVisits_within s _ (fun k hk => (below_depth_iff _ .bits k).mpr fun b hb => hk.trans_le (hfits b hb))
      hinv.bitsWithin

/-- A host write of a value of the register's width. -/
theorem inv_writeReg {n v : Nat} {w : Option Nat} (hw : regWidth s.params n = some w) (hv : fitsWidth w v = true) :
    (writeReg n v s).Inv := by
  unfold writeReg
  split
  case h_1 => cases hw; exact { hinv with width := hv }
  case h_2 => cases hw; exact { hinv with height := hv }
  case h_3 => exact { hinv with }
  case h_4 => cases hw; exact { hinv with mlen := hv }
  case h_5 => cases hw; exact { hinv with blen := hv }
  case h_6 => exact hinv

/-- A host write below the memory's depth. -/
theorem inv_writeElement {sp : Space} {a : Nat} (v : Nat) (ha : below a (depth s.params sp) = true) :
    (writeElement sp a v s).Inv := by
  cases sp with
  | img => exact { hinv with
      imgWf := memory_wf_write a _ hinv.imgWf, imgWithin := memory_within_write _ ha hinv.imgWithin }
  | msg => exact { hinv with
      msgWf := memory_wf_write a _ hinv.msgWf, msgWithin := memory_within_write _ ha hinv.msgWithin }
  | bits => exact { hinv with
      bitsWf := memory_wf_write a _ hinv.bitsWf, bitsWithin := memory_within_write _ ha hinv.bitsWithin }

end

/-! The commands. -/

/-- The whole characters before a sentinel fit `MSG`: the bitstream holds the sentinel's sixteen bits besides
(92_eei_decisions.md D31). -/
theorem messageInDepth_storeMessage {s : State} {j : Nat} (hfits : BitstreamInDepth s)
    (hj : findSentinel (bitstream s) = some j) :
    MessageInDepth (storeMessage (charactersOf (j / 8) (bitstream s)) s) := by
  intro b hb
  have hdepth := hfits b hb
  have hend := le_length_of_findSentinel hj
  rw [length_bitstream] at hend
  rw [storeMessage_mlen, length_charactersOf]
  omega

/-- The decode walk of an image that fits `IMG` leaves a bitstream inside `BITS`. -/
theorem bitstreamInDepth_extractWalk {s : State} (h : ImageInDepth s) : BitstreamInDepth (extractWalk s) := by
  intro b hb
  rw [extractWalk_blen]
  exact carriers_le_maxBits h hb

theorem inv_unpackEffect {s : State} (hinv : s.Inv) (hfits : BitstreamInDepth s) : (unpackEffect s).Inv := by
  cases hsearch : findSentinel (bitstream s) with
  | none => rw [unpackEffect_of_none hsearch]; exact inv_finish hinv _
  | some j =>
    rw [unpackEffect_of_some hsearch]
    exact inv_finish (inv_storeMessage hinv (messageInDepth_storeMessage hfits hsearch)) _

theorem inv_packed {s : State} (hinv : s.Inv) (hmsg : MessageInDepth s) : (packed s).Inv :=
  inv_storeBitstream hinv (bitstreamInDepth_packed hinv.params hmsg)

theorem inv_embedEffect {s : State} (hinv : s.Inv) (hch : Channels s) (himage : ImageInDepth s) :
    (embedEffect s).Inv := by
  rw [embedEffect]
  split
  · exact inv_finish (inv_writeCapacity hinv) _
  · exact inv_finish (inv_embedWalk (inv_writeCapacity hinv) _ hch himage) _

/-- A command on legal operands. -/
theorem inv_effectOf {i : Instr} {s : State} (hinv : s.Inv) (hlegal : OperandsLegal i s) : (effectOf i s).Inv := by
  cases i with
  | chkcap => rw [effectOf, chkcapEffect_eq]; exact inv_finish (inv_writeCapacity hinv) _
  | pack =>
    rw [effectOf]
    by_cases hgood : LegalMessage s
    · rw [packEffect_eq_packed hgood]; exact inv_finish (inv_packed hinv hlegal) _
    · rw [packEffect_of_illegal hgood]; exact inv_finish hinv _
  | unpack => exact inv_unpackEffect hinv hlegal
  | embed =>
    obtain ⟨-, hch, himage, -⟩ := hlegal
    exact inv_embedEffect hinv hch himage
  | extract =>
    obtain ⟨-, -, himage⟩ := hlegal
    exact inv_finish (inv_extractWalk hinv himage) _
  | encode =>
    obtain ⟨-, hch, himage, hmsg⟩ := hlegal
    rw [effectOf]
    by_cases hgood : LegalMessage s
    · rw [encodeEffect_of_legal hgood]; exact inv_embedEffect (inv_packed hinv hmsg) hch himage
    · rw [encodeEffect_of_illegal hgood]; exact inv_finish hinv _
  | decode =>
    obtain ⟨-, -, himage⟩ := hlegal
    exact inv_unpackEffect (inv_extractWalk hinv himage) (bitstreamInDepth_extractWalk himage)

/-- Every write to `CMD`. -/
theorem inv_command {w : Byte} {s t : State} (hinv : s.Inv) (h : command w s = .next t) : t.Inv := by
  rcases command_cases h with ⟨-, rfl⟩ | ⟨-, -, rfl⟩ | ⟨-, _, -, -, rfl⟩ | ⟨-, i, -, hok, rfl⟩
  · exact hinv
  · exact inv_raiseFault hinv _
  · exact inv_raiseFault hinv _
  · exact inv_effectOf hinv ((operandsOk_iff i s).mp hok)

/-- Every transaction. -/
theorem inv_transact {x : HostTxn} {s t : State} (hinv : s.Inv) (h : transact x s = .next t) : t.Inv := by
  rcases transact_cases h with ⟨_, _, -, -, rfl⟩ | ⟨_, -, -, hcmd⟩ | ⟨_, _, _, -, -, hw, hv, rfl⟩ |
    ⟨_, _, -, -, rfl⟩ | ⟨_, _, v, -, ha, -, rfl⟩ | ⟨-, rfl⟩
  · exact inv_withHostReply hinv _ _
  · exact inv_command hinv hcmd
  · exact inv_writeReg hinv hw hv
  · exact inv_withHostReply hinv _ _
  · exact inv_writeElement hinv v ha
  · exact inv_resetRegisters hinv

end Sys2Proof.Claims

namespace Sys2Proof.Proofs

open Sys2Proof.Machine Sys2Proof.Claims

/-- Settles O12: the registers are 0, the memories list nothing, and unbounded sizes are allowed. -/
theorem invariantAtReset : Obligations.InvariantAtReset := inv_reset

/-- Settles O13: an idle core changes nothing, and a pending transaction is made of updates that keep the invariant, the
operand checks giving the bounds that a command's updates need. -/
theorem everyStepKeepsTheInvariant : Obligations.EveryStepKeepsTheInvariant := by
  intro s t hinv h
  cases hhost : s.host with
  | nil => rw [step_of_idle hhost] at h; cases h; exact hinv
  | cons x rest =>
    rw [step_of_pending hhost] at h
    exact inv_transact (inv_withHostReply hinv rest none) h

end Sys2Proof.Proofs
end

section
/-! What stops and what answers (10_state.md R21, 93_implementation_defined.md U9): each transaction's condition for a next
state is its row of the interface. -/

namespace Sys2Proof.Claims

open Sys2Proof.Machine

/-- A number is a register's, and a value of that register's width, exactly by the rows of R23. -/
theorem regWidth_fits_iff (P : Config.Params) (n v : Nat) :
    (∃ w, regWidth P n = some w ∧ Fits w v) ↔ InInterface P (.regWrite n v) := by
  have hbounded : ∀ k, Fits (some k) v ↔ v < 2 ^ k := fun k => ⟨fun h => h k rfl, fits_some⟩
  have hcapacity : Fits (capacityWidth P) v ↔ ∀ d, P.dimw = some d → v < 2 ^ (2 * d + 2) :=
    ⟨fun h d hd => h _ (congrArg (Option.map _) hd), fits_capacityWidth⟩
  match n with
  | 0 | 1 | 2 | 3 | 4 | 5 | 6 | 7 | 8 => simp [regWidth, InInterface, hbounded, hcapacity]
  | n + 9 => simp [regWidth, InInterface]

theorem regRead_answers_iff (n : Nat) (s : State) : (∃ t, regRead n s = .next t) ↔ n ≤ 8 := by
  match n with
  | 0 | 1 | 2 | 3 | 4 | 5 | 6 | 7 | 8 => simp [regRead, readReg]
  | n + 9 => simp [regRead, readReg]

/-- A write of a value of the register's width answers, a command's write to `CMD` too. -/
theorem regWrite_answers_iff (n v : Nat) (s : State) :
    (∃ t, regWrite n v s = .next t) ↔ ∃ w, regWidth s.params n = some w ∧ Fits w v := by
  unfold regWrite
  cases hw : regWidth s.params n with
  | none => simp
  | some w =>
    simp only [Option.some.injEq, exists_eq_left']
    by_cases hv : Fits w v
    · rw [if_pos ((fitsWidth_iff w v).mpr hv)]
      refine iff_of_true ?_ hv
      split
      · exact command_answers _ _
      · exact ⟨_, rfl⟩
    · rw [if_neg fun h => hv ((fitsWidth_iff w v).mp h)]
      exact iff_of_false nofun hv

theorem memRead_answers_iff (sp : Space) (a : Nat) (s : State) :
    (∃ t, memRead sp a s = .next t) ↔ below a (depth s.params sp) = true := by
  unfold memRead
  split
  case isTrue ha => exact iff_of_true ⟨_, rfl⟩ ha
  case isFalse ha => exact iff_of_false nofun ha

theorem memWrite_answers_iff (sp : Space) (a v : Nat) (s : State) :
    (∃ t, memWrite sp a v s = .next t) ↔ below a (depth s.params sp) = true ∧ v < 2 ^ elementWidth sp := by
  unfold memWrite
  split
  case isTrue ha =>
    split
    case isTrue hv => exact iff_of_true ⟨_, rfl⟩ ⟨ha, hv⟩
    case isFalse hv => exact iff_of_false nofun fun h => hv h.2
  case isFalse ha => exact iff_of_false nofun fun h => ha h.1

/-- A host write is part of the interface where a host read is, for a value of the element's width. -/
theorem inInterface_memWrite_iff (P : Config.Params) (sp : Space) (a v : Nat) :
    InInterface P (.memWrite sp a v) ↔ InInterface P (.memRead sp a) ∧ v < 2 ^ elementWidth sp := by
  cases sp <;> rfl

/-- A transaction answers a next state exactly if it is part of the interface. -/
theorem transact_answers_iff (x : HostTxn) (s : State) : (∃ t, transact x s = .next t) ↔ InInterface s.params x := by
  cases x with
  | regRead n => exact regRead_answers_iff n s
  | regWrite n v => exact (regWrite_answers_iff n v s).trans (regWidth_fits_iff _ _ _)
  | memRead sp a => exact (memRead_answers_iff sp a s).trans (below_depth_iff _ _ _)
  | memWrite sp a v =>
    rw [inInterface_memWrite_iff, ← below_depth_iff]
    exact memWrite_answers_iff sp a v s
  | reset => exact iff_of_true ⟨_, rfl⟩ trivial

end Sys2Proof.Claims

namespace Sys2Proof.Proofs

open Sys2Proof.Machine Sys2Proof.Claims

/-- Settles O9: taking the transaction off the list changes no size, so the transaction itself decides. -/
theorem stepAnswersExactlyTheInterface : Obligations.StepAnswersExactlyTheInterface := by
  intro s x rest hhost
  rw [step_of_pending hhost]
  exact (transact_answers_iff x (taken s rest)).symm

end Sys2Proof.Proofs
end

section
/-! The memory port (10_state.md R21, 20_memory.md R58): what one step does that performs a `HostMemRead` or a
`HostMemWrite`. -/

namespace Sys2Proof.Claims

open Sys2Proof.Machine

/-- The elements do not depend on the transaction list and the reply. -/
theorem elementAt_taken (sp : Space) (a : Nat) (s : State) (rest : List HostTxn) :
    elementAt sp a (taken s rest) = elementAt sp a s := by cases sp <;> rfl

/-- A host read below the memory's depth returns the element and changes nothing else. -/
theorem step_of_memRead {s : State} {sp : Space} {a : Nat} {rest : List HostTxn} (h : s.host = .memRead sp a :: rest)
    (ha : InInterface s.params (.memRead sp a)) :
    step s = .next { s with host := rest, reply := some (elementAt sp a s) } := by
  have ha' : below a (depth (taken s rest).params sp) = true := (below_depth_iff _ _ _).mpr ha
  calc step s = memRead sp a (taken s rest) := step_of_pending h
    _ = .next { s with host := rest, reply := some (elementAt sp a s) } := by
      rw [memRead, if_pos ha', elementAt_taken]
      rfl

/-- A host write below the memory's depth of a value of the element's width is one `writeElement`. -/
theorem step_of_memWrite {s : State} {sp : Space} {a v : Nat} {rest : List HostTxn}
    (h : s.host = .memWrite sp a v :: rest) (hw : InInterface s.params (.memWrite sp a v)) :
    step s = .next (writeElement sp a v (taken s rest)) := by
  obtain ⟨ha, hv⟩ := (inInterface_memWrite_iff _ _ _ _).mp hw
  have ha' : below a (depth (taken s rest).params sp) = true := (below_depth_iff _ _ _).mpr ha
  calc step s = memWrite sp a v (taken s rest) := step_of_pending h
    _ = .next (writeElement sp a v (taken s rest)) := by rw [memWrite, if_pos ha', if_pos hv]

/-- A host write writes no register and none of the model's own fields. -/
theorem writeElement_eq (sp : Space) (a v : Nat) (s : State) :
    writeElement sp a v s = { s with
      img := (writeElement sp a v s).img, msg := (writeElement sp a v s).msg, bits := (writeElement sp a v s).bits } := by
  cases sp <;> rfl

/-- The element written reads as the value written. -/
theorem elementAt_writeElement_same {sp : Space} {v : Nat} (a : Nat) (s : State) (hv : v < 2 ^ elementWidth sp) :
    elementAt sp a (writeElement sp a v s) = v := by
  cases sp with
  | img => rw [elementAt, imgAt_writeElement, if_pos rfl]; exact Nat.mod_eq_of_lt hv
  | msg => rw [elementAt, msgAt_writeElement, if_pos rfl]; exact Nat.mod_eq_of_lt hv
  | bits => rw [elementAt, bitsAt_writeElement, if_pos rfl]; exact Nat.mod_eq_of_lt hv

/-- Every other element of the space, and every element of the other spaces, reads as before. -/
theorem elementAt_writeElement_other {sp sp' : Space} {a a' : Nat} (v : Nat) (s : State) (h : ¬(sp' = sp ∧ a' = a)) :
    elementAt sp' a' (writeElement sp a v s) = elementAt sp' a' s := by
  match sp, sp', h with
  | .img, .img, h => rw [elementAt, imgAt_writeElement, if_neg fun ha => h ⟨rfl, ha⟩, elementAt]
  | .msg, .msg, h => rw [elementAt, msgAt_writeElement, if_neg fun ha => h ⟨rfl, ha⟩, elementAt]
  | .bits, .bits, h => rw [elementAt, bitsAt_writeElement, if_neg fun ha => h ⟨rfl, ha⟩, elementAt]
  | .img, .msg, _ | .img, .bits, _ | .msg, .img, _ | .msg, .bits, _ | .bits, .img, _ | .bits, .msg, _ => rfl

end Sys2Proof.Claims

namespace Sys2Proof.Proofs

open Sys2Proof.Machine Sys2Proof.Claims

/-- Settles O8: the first step is one `writeElement`, and the read behind it is inside the interface because the write
is. -/
theorem hostMemoryReadsWhatWasWritten : Obligations.HostMemoryReadsWhatWasWritten := by
  refine ⟨fun s sp a rest h ha => step_of_memRead h ha, fun s a => ⟨rfl, rfl, rfl⟩, fun s sp a v rest h hw => ?written⟩
  case written =>
    obtain ⟨ha, hv⟩ := (inInterface_memWrite_iff _ _ _ _).mp hw
    have hframe := writeElement_eq sp a v (taken s (.memRead sp a :: rest))
    have hparams : (writeElement sp a v (taken s (.memRead sp a :: rest))).params = s.params := by rw [hframe]; rfl
    refine ⟨_, step_of_memWrite h hw, hframe, fun sp' a' hother => ?other, ?same⟩
    case other => rw [elementAt_writeElement_other v _ hother, elementAt_taken]
    case same =>
      rw [step_of_memRead (by rw [hframe]; rfl) (hparams ▸ ha), elementAt_writeElement_same a _ hv]

end Sys2Proof.Proofs
end

section
/-! What clears `FAULT`, `FCAUSE` and `DONE` (70_reset_and_hazards.md R211): nothing but `Reset`, since a command on an
unfaulted core only sets them. -/

namespace Sys2Proof.Claims

open Sys2Proof.Machine

/-- `st'` has the fault of `st` if `st` has one, and is done if `st` is. -/
def KeepsFaultAndDone (st st' : BitVec 8) : Prop :=
  (faultField st = true → faultField st' = true ∧ fcauseField st' = fcauseField st) ∧
  (doneField st = true → doneField st' = true)

theorem keepsFaultAndDone_refl (st : BitVec 8) : KeepsFaultAndDone st st := ⟨fun h => ⟨h, rfl⟩, id⟩

/-- Fault entry happens on an unfaulted core and keeps `DONE` (60_exceptions.md R188). -/
theorem keepsFaultAndDone_statusOfFault (c : FaultCause) {st : BitVec 8} (hf : faultField st = false) :
    KeepsFaultAndDone st (statusOfFault c st) :=
  ⟨fun h => absurd (h.symm.trans hf) (by decide), fun h => (doneField_statusOfFault c st).trans h⟩

/-- A result keeps the fault fields and sets `DONE` (60_exceptions.md R184). -/
theorem keepsFaultAndDone_statusOfResult (r : Result) (st : BitVec 8) :
    KeepsFaultAndDone st (statusOfResult r st) :=
  ⟨fun h => ⟨(faultField_statusOfResult r st).trans h, fcauseField_statusOfResult r st⟩,
    fun _ => doneField_statusOfResult r st⟩

theorem keepsFaultAndDone_command {w : Byte} {s t : State} (h : command w s = .next t) :
    KeepsFaultAndDone s.status t.status := by
  rcases command_cases h with ⟨-, rfl⟩ | ⟨hf, -, rfl⟩ | ⟨hf, _, -, -, rfl⟩ | ⟨-, i, -, -, rfl⟩
  · exact keepsFaultAndDone_refl _
  · exact keepsFaultAndDone_statusOfFault _ hf
  · exact keepsFaultAndDone_statusOfFault _ hf
  · obtain ⟨r, hr⟩ := effectOf_status i s
    exact hr ▸ keepsFaultAndDone_statusOfResult r s.status

theorem keepsFaultAndDone_transact {x : HostTxn} {s t : State} (h : transact x s = .next t) (hreset : x ≠ .reset) :
    KeepsFaultAndDone s.status t.status := by
  by_cases hcmd : ∃ w, x = .regWrite 0 w
  · obtain ⟨w, rfl⟩ := hcmd
    obtain ⟨-, hcommand⟩ := command_of_transact h
    exact keepsFaultAndDone_command hcommand
  · rw [status_of_transact h (fun w hx => hcmd ⟨w, hx⟩) hreset]
    exact keepsFaultAndDone_refl _

end Sys2Proof.Claims

namespace Sys2Proof.Proofs

open Sys2Proof.Machine Sys2Proof.Claims

/-- Settles O17: an idle core keeps `STATUS`, and so does every transaction but `Reset` and a write to `CMD`, which keeps
a fault and `DONE`. -/
theorem onlyResetClearsFaultAndDone : Obligations.OnlyResetClearsFaultAndDone := by
  intro s t h hreset
  cases hhost : s.host with
  | nil => rw [step_of_idle hhost] at h; cases h; exact keepsFaultAndDone_refl _
  | cons x rest =>
    rw [step_of_pending hhost] at h
    exact keepsFaultAndDone_transact (s := taken s rest) h fun hx => hreset (by rw [hhost, hx]; rfl)

end Sys2Proof.Proofs
end

section
/-! The sentinel (30_encoding.md R73) in messages of 7-bit characters (70_reset_and_hazards.md R218): its fifteen 1s would
cover the first bit of a character, which is a 0. -/

namespace Sys2Proof.Claims

open Sys2Proof.Machine

/-- The most significant bit of a 7-bit character's byte is 0. -/
theorem bitAt_seven_of_lt {c : Char32} (h : c.toNat < 0x80) : bitAt c 7 = 0#1 := by
  apply BitVec.eq_of_toNat_eq
  rw [toNat_bitAt, Nat.div_eq_of_lt (b := 2 ^ 7) h]
  rfl

/-- Every eighth data bit of a 7-bit message is 0, so nowhere do fifteen 1s stand in a row. -/
theorem not_patternAt_of_sevenBit {M : List Char32} (h : ∀ c ∈ M, c.toNat < 0x80) (j : Nat) :
    ¬PatternAt (dataBits M) j := by
  intro hat
  have hend := hat.le_length
  rw [length_dataBits] at hend
  obtain ⟨hones, -⟩ := hat
  have hi : (j + 7) / 8 < M.length := by omega
  have hone := hones (8 * ((j + 7) / 8) - j) (by omega)
  rw [show j + (8 * ((j + 7) / 8) - j) = 8 * ((j + 7) / 8) + 0 by omega,
    getElem?_dataBits (List.getElem?_eq_getElem hi) (by decide),
    bitAt_seven_of_lt (h _ (List.getElem_mem hi))] at hone
  exact absurd hone (by decide)

end Sys2Proof.Claims

namespace Sys2Proof.Proofs

open Sys2Proof.Machine Sys2Proof.Claims

/-- Settles O28: a message in whose data bits nothing matches survives. -/
theorem sevenBitMessagesSurvive : Obligations.SevenBitMessagesSurvive := fun M T h =>
  ⟨_, pack_of_legal fun c hc => by have := h c hc; omega,
    (unpack_packed_append_eq_map_iff M T).mp (not_patternAt_of_sevenBit h)⟩

/-- Settles O22: sixteen bits read from `SENTINEL`, most significant first. -/
theorem sentinelInStreamOrder : Obligations.SentinelInStreamOrder :=
  ⟨rfl, rfl, rfl, fun t ht => by simp [sentinelBits, ht]⟩

end Sys2Proof.Proofs
end

section
/-! EMBED over its own image (42_insert_encode.md R124). -/

namespace Sys2Proof.Claims

open Sys2Proof.Machine

/-- EMBED of a bitstream that fits leaves its own operands: the geometry, the sizes and the bitstream. -/
theorem operands_embedEffect {s : State} (hlegal : OperandsLegal .embed s) (hfits : s.blen ≤ carriers s) :
    OperandsLegal .embed (embedEffect s) ∧ (embedEffect s).blen ≤ carriers (embedEffect s) := by
  rw [embedEffect_of_le hfits]
  exact ⟨hlegal, hfits⟩

/-- EMBED does not write `BITS` and `BLEN`. -/
theorem bitstream_embedEffect (s : State) : bitstream (embedEffect s) = bitstream s := by
  rw [embedEffect]
  split <;> rfl

/-- EMBED of a bitstream that fits ends with OK. -/
theorem status_embedEffect {s : State} (hfits : s.blen ≤ carriers s) :
    (embedEffect s).status = statusOfResult .ok s.status := by
  rw [embedEffect_of_le hfits]
  rfl

/-- EMBED, run again, embeds the bits that it left in the image. -/
theorem imgAt_embedEffect_embedEffect {s : State} (hlegal : OperandsLegal .embed s) (hfits : s.blen ≤ carriers s)
    (a : Nat) : imgAt (embedEffect (embedEffect s)) a = imgAt (embedEffect s) a := by
  obtain ⟨⟨-, hchans', -, -⟩, hfits'⟩ := operands_embedEffect hlegal hfits
  obtain ⟨-, hchans, -, -⟩ := hlegal
  have hok : ∀ {u : State}, u.blen ≤ carriers u → resultField (embedEffect u).status = 0#2 := fun hu => by
    rw [status_embedEffect hu, resultField_statusOfResult]; rfl
  have hemb := embedded_embedEffect hchans (hok hfits)
  have hemb' := embedded_embedEffect hchans' (hok hfits')
  obtain ⟨hblen, hbits⟩ := blen_and_bitsAt_of_bitstream_eq (bitstream_embedEffect (embedEffect s))
  refine imgAt_of_holdsEmbedded_lsb hemb'.image (fun k hk => ?_) a
  rw [hblen] at hk
  rw [hbits k hk, lsb_of_embedded_lt hemb hk]

end Sys2Proof.Claims

namespace Sys2Proof.Proofs

open Sys2Proof.Machine Sys2Proof.Claims

/-- Settles O53: the first EMBED leaves legal operands and a bitstream that still fits, and the second embeds the bits that
stand in the image already. -/
theorem embeddingTwiceIsEmbeddingOnce : Obligations.EmbeddingTwiceIsEmbeddingOnce := by
  intro s t hf hexec ht hok
  obtain ⟨hlegal, rfl⟩ := legal_of_unfaulted hf hexec ht
  have hfits : s.blen ≤ carriers s := le_carriers_of_embedEffect_ok hok
  obtain ⟨hlegal', hfits'⟩ := operands_embedEffect hlegal hfits
  exact ⟨_, exec_of_legal ht hlegal', ended_of_status (r := .ok) (status_embedEffect hfits'),
    imgAt_embedEffect_embedEffect hlegal hfits⟩

end Sys2Proof.Proofs
end

section
/-! PACK after UNPACK or DECODE (41_pack_unpack.md R107, 92_eei_decisions.md D31): a recovered message is legal and fits
`MSG`. -/

namespace Sys2Proof.Claims

open Sys2Proof.Machine

/-- Stored characters are bytes, zero-extended. -/
theorem legalMessage_storeMessage (r : List Byte) (s : State) : LegalMessage (storeMessage r s) := by
  intro i hi
  rw [msgAt_storeMessage, List.getElem?_eq_getElem hi, Option.map_some, Option.getD_some, BitVec.toNat_setWidth]
  omega

/-- UNPACK of a bitstream inside `BITS` that ends with OK leaves operands that are legal for PACK, and a legal message. -/
theorem packable_unpackEffect {s : State} (hfits : BitstreamInDepth s)
    (hok : resultField (unpackEffect s).status = 0#2) :
    OperandsLegal .pack (unpackEffect s) ∧ LegalMessage (unpackEffect s) := by
  cases hsearch : findSentinel (bitstream s) with
  | none =>
    rw [unpackEffect_of_none hsearch, finish_status, resultField_statusOfResult] at hok
    exact absurd hok (by decide)
  | some j =>
    rw [unpackEffect_of_some hsearch]
    exact ⟨messageInDepth_storeMessage hfits hsearch, legalMessage_storeMessage _ s⟩

/-- The same of the two commands that recover a message. -/
theorem packable_effectOf {i : Instr} {s : State} (hi : i = .unpack ∨ i = .decode) (hlegal : OperandsLegal i s)
    (hok : resultField (effectOf i s).status = 0#2) :
    OperandsLegal .pack (effectOf i s) ∧ LegalMessage (effectOf i s) := by
  rcases hi with rfl | rfl
  · exact packable_unpackEffect hlegal hok
  · obtain ⟨-, -, himage⟩ := hlegal
    exact packable_unpackEffect (bitstreamInDepth_extractWalk himage) hok

end Sys2Proof.Claims

namespace Sys2Proof.Proofs

open Sys2Proof.Machine Sys2Proof.Claims

/-- Settles O55: what was recovered is legal for PACK, whose stream is eight bits a character and the sentinel. -/
theorem recoveredMessagesPack : Obligations.RecoveredMessagesPack := by
  intro i s t hi hf hexec ht hok
  obtain ⟨hlegal, rfl⟩ := legal_of_unfaulted hf hexec ht
  obtain ⟨hpack, hgood⟩ := packable_effectOf hi hlegal hok
  have heffect := packEffect_eq_packed hgood
  exact ⟨_, exec_of_legal ht hpack, ended_of_status (r := .ok) (congrArg State.status heffect),
    (congrArg State.blen heffect).trans (packed_blen _)⟩

end Sys2Proof.Proofs
end

section
/-! The command words and the step that runs them (30_encoding.md R80, 10_state.md R21, R30). -/

namespace Sys2Proof.Claims

open Sys2Proof.Machine

/-- The command port of a core on a word that decodes. -/
theorem command_of_ok {w : Byte} {i : Instr} {s : State} (h : decode w = .ok i) : command w s = exec i s := by
  rw [(decode_eq_ok_iff w i).mp h, command_of_commandWord]

/-- A step that writes a command's word to `CMD` is that command. -/
theorem step_of_commandWord {s : State} {w : Byte} {i : Instr} {rest : List HostTxn}
    (h : s.host = .regWrite 0 w.toNat :: rest) (hd : decode w = .ok i) : step s = exec i (taken s rest) := by
  rw [step_of_commandWrite h w.isLt, BitVec.ofNat_toNat, BitVec.setWidth_eq, command_of_ok hd]

/-- `withFetchWord` puts the write of an 8-bit word first in the list and changes nothing else. -/
theorem withFetchWord_eight (s : State) (w : Byte) :
    s.withFetchWord 8 w.toNat = { s with host := .regWrite 0 w.toNat :: s.host } := by
  rw [State.withFetchWord, Nat.min_self, Nat.mod_eq_of_lt w.isLt]

end Sys2Proof.Claims

namespace Sys2Proof.Proofs

open Sys2Proof.Machine Sys2Proof.Claims

/-- Settles O2: the encoder writes the map's word, which the decoder reads back, also from its number. -/
theorem encoderAgreesWithDecoder : Obligations.EncoderAgreesWithDecoder := by
  intro i
  have hdecode : decode (encode i) = .ok i := (decode_eq_ok_iff _ i).mpr (encode_eq_commandWord i)
  refine ⟨encode_eq_commandWord i, hdecode, ?_⟩
  rw [decodeTableWord, if_pos ⟨Nat.le_refl 8, (encode i).isLt⟩, BitVec.ofNat_toNat, BitVec.setWidth_eq, hdecode]
  rfl

/-- Settles O3: seven rows of the decoder, evaluated. -/
theorem wordsWrittenOutDecode : Obligations.WordsWrittenOutDecode := ⟨rfl, rfl, rfl, rfl, rfl, rfl, rfl⟩

/-- Settles O5: the command port on a word that decodes is `exec`, also for the word that `withFetchWord` places. -/
theorem stepRunsTheDecodedCommand : Obligations.StepRunsTheDecodedCommand := by
  refine ⟨fun s w rest i h hd => step_of_commandWord h hd, fun s h => step_of_idle h, fun s w i hd => ?fetch⟩
  case fetch =>
    rw [withFetchWord_eight]
    exact step_of_commandWord rfl hd

/-- Settles O6: a `RegRead` of a register is its row of the register file. -/
theorem registerReadsReturn : Obligations.RegisterReadsReturn := by
  intro s n rest h
  have hread : ∀ v, readReg n s = some v → step s = .next { s with host := rest, reply := some v } :=
    fun v hv => step_of_regRead h hv
  refine ⟨?_, ?_, ?_, ?_, ?_, ?_, ?_, ?_, ?_⟩ <;> rintro rfl <;> exact hread _ rfl

/-- Settles O11: every register and every field at `State.reset`; an unlisted element reads as its free value. -/
theorem powerUpState : Obligations.PowerUpState :=
  ⟨rfl, rfl, rfl, rfl, rfl, rfl, rfl, fun _ => rfl, fun _ => rfl, fun _ => rfl, rfl, rfl, rfl⟩

end Sys2Proof.Proofs
end
